-- ==== Sys2Proof/Word.lean ====
section
/-! DEFINITION. The word of the machine. A cell (a register, a slot of `RAM` or of `Program`) holds "an
element of the mathematical integers, negative, zero or positive, of any size" (00_scope.md R6,
20_memory.md R41): an `Int` everywhere in this model. -/

namespace Sys2Proof

/-- `CELL_W` (00_scope.md R5, R8): no width, or the OPEN alternative of a finite number of bits. -/
inductive CellWidth where
  | unbounded
  | bits (w : Nat)
deriving DecidableEq, Repr

end Sys2Proof
end

