-- ==== Sys2Proof/Config.lean ====
section
/-! DEFINITION. The parameters of a machine (00_scope.md R5): fixed from construction to discard. -/

namespace Sys2Proof

/-- The parameters of R5 that can be chosen. `PROG_LEN` is the length of `program`, and `SP_INIT`
is `RAM_LEN - 1`, "not independently settable". -/
structure Config where
  /-- `RAM_LEN`, the number of cells of `RAM`. -/
  ramLen : Nat
  /-- `Program`, the program store's contents, index 0 first. -/
  program : List Int
  /-- `CELL_W`, the width of a value cell. -/
  cellW : CellWidth
  /-- `RTS_READ_OFFSET`: 0, or 1 for the original's off-by-one (43_control.md R125, R127). -/
  rtsReadOffset : Fin 2
deriving DecidableEq, Repr

/-- The configuration of `State.reset`: `RAM_LEN = 256`, `CELL_W = unbounded` and
`RTS_READ_OFFSET = 0` as in 95_test_vectors.md, and no program, since none is loaded.
DESIGN CHOICE (log 4). -/
def Config.reference : Config :=
  { ramLen := 256, program := [], cellW := .unbounded, rtsReadOffset := 0 }

end Sys2Proof
end

