-- ==== Sys2Proof/Machine/Width.lean ====
section
/-! DEFINITION. The width of a value cell: `norm`, `wrap_w`, and the parameters the spec admits. -/

namespace Sys2Proof.Machine

/-- `wrap_w(v)` of 00_scope.md R8: "`sext_w(bits[w-1:0] of v taken modulo 2^w)`". -/
def wrapSigned (w : Nat) (v : Int) : Int := (BitVec.ofInt w v).toInt

/-- `norm(v)` of R8: the identity when cells have no width, `wrap_w` when they have `w` bits. -/
def normCell : CellWidth → Int → Int
  | .unbounded, v => v
  | .bits w, v => wrapSigned w v

/-- A value that a cell of this width can hold: any integer, or `[-2^(w-1), 2^(w-1))` (R8). -/
def fits : CellWidth → Int → Bool
  | .unbounded, _ => true
  | .bits w, v => decide (-(2 ^ (w - 1) : Int) ≤ v) && decide (v < (2 ^ (w - 1) : Int))

/-- The bits of a cell that the `mask` of an opcode-table row selects (30_encoding.md R72): all of
them without a width (`mask` -1), or the two's-complement pattern as a number of `[0, 2^w)` (`mask`
`2^w - 1`). -/
def cellPattern : CellWidth → Int → Int
  | .unbounded, v => v
  | .bits w, v => v % 2 ^ w

/-- The values of `CELL_W` that R5 and R8 admit: `unbounded`, or a finite width `w >= 2`. -/
def legalWidth : CellWidth → Bool
  | .unbounded => true
  | .bits w => decide (2 ≤ w)

/-- The parameters the spec admits: `RAM_LEN >= 1` (R5, 70_reset_and_hazards.md R161), a legal
width, and "every program cell supplied at construction must already lie in" its range (R8). -/
def configWf (c : Config) : Bool :=
  decide (1 ≤ c.ramLen) && legalWidth c.cellW && c.program.all (fits c.cellW)

end Sys2Proof.Machine
end

