-- ==== Sys2Proof/Syntax.lean ====
section
/-! DEFINITION. The instructions: one constructor for each row of spec/opcode_table.json. -/

namespace Sys2Proof

/-- What stands where a two-cell instruction has its operand cell: `some v`, the whole integer in
it (30_encoding.md R63), or `none` when the program ends right after the opcode cell, which "is
not a decode error" (R67). -/
abbrev Operand := Option Int

/-- The 13 instructions of 30_encoding.md R64, and the invalid opcode as the fourteenth row. -/
inductive Instr where
  /-- `BRK`, code 0 (43_control.md R120). -/
  | brk
  /-- `LDA v`, code 1 (41_load_store.md R100). -/
  | lda (v : Operand)
  /-- `ADC v`, code 2 (42_arith_compare.md R110). -/
  | adc (v : Operand)
  /-- `STA a`, code 3 (41_load_store.md R103). -/
  | sta (a : Operand)
  /-- `LDX v`, code 4 (41_load_store.md R101). -/
  | ldx (v : Operand)
  /-- `INX`, code 5 (42_arith_compare.md R111). -/
  | inx
  /-- `CMY v`, code 6 (42_arith_compare.md R113). -/
  | cmy (v : Operand)
  /-- `BNE k`, code 7 (43_control.md R121). -/
  | bne (k : Operand)
  /-- `STAX`, code 8 (41_load_store.md R104). -/
  | stax
  /-- `DEY`, code 9 (42_arith_compare.md R112). -/
  | dey
  /-- `LDY a`, code 10 (41_load_store.md R102). -/
  | ldy (a : Operand)
  /-- `JSR t`, code 11 (43_control.md R123). -/
  | jsr (t : Operand)
  /-- `RTS`, code 12 (43_control.md R125). -/
  | rts
  /-- Every other opcode cell `op` (30_encoding.md R66, 43_control.md R128). -/
  | invalid (op : Int)
deriving DecidableEq, Repr

end Sys2Proof
end

