-- ==== Sys2Proof/WellFormed.lean ====
section
/-! DEFINITION. Which terms of `Instr` stand for an instruction in a program store. -/

namespace Sys2Proof

/-- The operand of an instruction: `none` for the one-cell ones, `some o` for a two-cell one whose
operand cell is `o` (30_encoding.md R61). -/
def Instr.operand? : Instr → Option Operand
  | .lda o | .adc o | .sta o | .ldx o | .cmy o | .bne o | .ldy o | .jsr o => some o
  | .brk | .inx | .stax | .dey | .rts | .invalid _ => none

/-- An instruction the decoder can give: `invalid op` stands for an `op` that is not one of the
codes 0 to 12 (30_encoding.md R66). Every operand value is accepted (R67). -/
def Instr.wf : Instr → Bool
  | .invalid op => decide (op < 0) || decide (12 < op)
  | .brk | .lda _ | .adc _ | .sta _ | .ldx _ | .inx | .cmy _ | .bne _ | .stax | .dey | .ldy _
  | .jsr _ | .rts => true

/-- The instruction has all its cells: a two-cell one has its operand cell (30_encoding.md R60). -/
def Instr.complete (i : Instr) : Bool := i.operand? != some none

end Sys2Proof
end

