-- ==== Sys2Proof/Decode.lean ====
section
/-! DEFINITION. Decoding cells, and after it the encoder and the listing (30_encoding.md). -/

namespace Sys2Proof

/-- What the decoder answers. It rejects by name: an unmapped opcode is `instr (.invalid op)`, and
no opcode cell at all is `noOpcodeCell`. -/
inductive DecodeResult where
  | instr (i : Instr) (rest : List Int)
  | noOpcodeCell
deriving DecidableEq, Repr

/-- A two-cell instruction (format `C2`, R60): the next cell, if there is one, is its operand,
used whole (R63). -/
def withOperand (mk : Operand → Instr) : List Int → DecodeResult
  | [] => .instr (mk none) []
  | v :: rest => .instr (mk (some v)) rest

/-- The opcode map of R64, by integer equality on the whole opcode cell (R65); every other
integer is the invalid opcode, which consumes nothing more (R61, R66). DESIGN CHOICE (log 24): with a
finite `CELL_W` too, so that a negative cell is invalid even where R72's pattern is a code. -/
def decode : List Int → DecodeResult
  | [] => .noOpcodeCell
  | op :: rest =>
    if op = 0 then .instr .brk rest
    else if op = 1 then withOperand .lda rest
    else if op = 2 then withOperand .adc rest
    else if op = 3 then withOperand .sta rest
    else if op = 4 then withOperand .ldx rest
    else if op = 5 then .instr .inx rest
    else if op = 6 then withOperand .cmy rest
    else if op = 7 then withOperand .bne rest
    else if op = 8 then .instr .stax rest
    else if op = 9 then .instr .dey rest
    else if op = 10 then withOperand .ldy rest
    else if op = 11 then withOperand .jsr rest
    else if op = 12 then .instr .rts rest
    else .instr (.invalid op) rest

/-- The opcode cell of an instruction (R64). -/
def Instr.opcode : Instr → Int
  | .brk => 0
  | .lda _ => 1
  | .adc _ => 2
  | .sta _ => 3
  | .ldx _ => 4
  | .inx => 5
  | .cmy _ => 6
  | .bne _ => 7
  | .stax => 8
  | .dey => 9
  | .ldy _ => 10
  | .jsr _ => 11
  | .rts => 12
  | .invalid op => op

/-- The cells of an instruction: "the one cell holding its code", or "the two cells `code(M), v`"
(R71). An instruction whose operand cell is missing is its opcode cell alone. -/
def encode (i : Instr) : List Int :=
  match i.operand? with
  | some (some v) => [i.opcode, v]
  | some none | none => [i.opcode]

/-- Every cell of the instruction, its opcode cell included, can be held by a cell of width `cw`
(00_scope.md R8). -/
def Instr.cellFits (cw : CellWidth) (i : Instr) : Bool := (encode i).all (Machine.fits cw)

/-- The length of an instruction in cells, decided by its opcode alone (R61). -/
def Instr.lengthCells (i : Instr) : Nat := if i.operand?.isSome then 2 else 1

/-- The cells of a list of instructions: assembly is cell for cell, with no expansion (R71). -/
def assemble (is : List Instr) : List Int := is.flatMap encode

/-- The thirteen mnemonics (R70), and the table's name for the fourteenth row (R72). -/
def Instr.mnemonic : Instr → String
  | .brk => "BRK"
  | .lda _ => "LDA"
  | .adc _ => "ADC"
  | .sta _ => "STA"
  | .ldx _ => "LDX"
  | .inx => "INX"
  | .cmy _ => "CMY"
  | .bne _ => "BNE"
  | .stax => "STAX"
  | .dey => "DEY"
  | .ldy _ => "LDY"
  | .jsr _ => "JSR"
  | .rts => "RTS"
  | .invalid _ => "(invalid)"

/-- The listing of an instruction: its mnemonic, "followed, for a two-cell instruction, by its
operand as a signed decimal integer" (00_scope.md R9, R70). -/
def Instr.listing (i : Instr) : String :=
  match i.operand? with
  | some (some v) => i.mnemonic ++ " " ++ toString v
  | some none | none => i.mnemonic

/-- One row of spec/opcode_table.json (R72): `code` is its `match`, `none` for the invalid row,
and `OpcodeRow.matchesCell` applies its `mask`. -/
structure OpcodeRow where
  mnemonic : String
  code : Option Int
  lengthCells : Nat
deriving DecidableEq, Repr

/-- spec/opcode_table.json, in its order. -/
def opcodeTable : List OpcodeRow :=
  [⟨"BRK", some 0, 1⟩, ⟨"LDA", some 1, 2⟩, ⟨"ADC", some 2, 2⟩, ⟨"STA", some 3, 2⟩,
   ⟨"LDX", some 4, 2⟩, ⟨"INX", some 5, 1⟩, ⟨"CMY", some 6, 2⟩] ++
  [⟨"BNE", some 7, 2⟩, ⟨"STAX", some 8, 1⟩, ⟨"DEY", some 9, 1⟩, ⟨"LDY", some 10, 2⟩,
   ⟨"JSR", some 11, 2⟩, ⟨"RTS", some 12, 1⟩, ⟨"(invalid)", none, 1⟩]

/-- A row matches an opcode cell when the bits its `mask` selects are its code (R72, decision D16, log
23): the whole integer without a width, the two's-complement pattern with one. The invalid row matches
the cells that no other row matches. DESIGN CHOICE (log 24): where the pattern of a negative cell is a
code (widths 2 to 4), the table says so, but the machine decodes by R65 and R66, for which the cell is
invalid. -/
def OpcodeRow.matchesCell (r : OpcodeRow) (cw : CellWidth) (op : Int) : Bool :=
  match r.code with
  | some c => Machine.cellPattern cw op == c
  | none => !opcodeTable.any (fun q => q.code == some (Machine.cellPattern cw op))

/-- The two cells that a table word stands for. Cells have no width, so the words of the host's
table are read as 32-bit two's complement windows: bits 31..0 are the opcode cell and bits 63..32
the operand cell. DESIGN CHOICE (log 6). -/
def tableCells (nbits w : Nat) : List Int :=
  let v := w % 2 ^ nbits
  [(BitVec.ofNat 32 v).toInt, (BitVec.ofNat 32 (v / 2 ^ 32)).toInt]

/-- The instruction the decoder reads from a table word (log 6). -/
def decodeTableWord (nbits w : Nat) : Option Instr :=
  match decode (tableCells nbits w) with
  | .instr i _ => some i
  | .noOpcodeCell => none

end Sys2Proof
end

