-- ==== Sys2Proof/Machine/State.lean ====
section
/-! DEFINITION. The state of a machine instance (10_state.md), the reasons a step can stop, reset. -/

namespace Sys2Proof.Machine

/-- The four halt reasons of 60_exceptions.md R130, with their payloads (R131). -/
inductive HaltReason where
  /-- `Break`: "explicit halt instruction; not an error, a normal termination reason". -/
  | brk
  /-- `InvalidOpcode(code)`: the opcode cell is not one of 0 to 12. -/
  | invalidOpcode (code : Int)
  /-- `AddressOutOfBounds(addr)`: a memory read or write target outside `[0, RAM_LEN)`. -/
  | addressOutOfBounds (addr : Int)
  /-- `ProgramOutOfBounds(index)`: the index presented to the program store is outside it. -/
  | programOutOfBounds (index : Int)
deriving DecidableEq, Repr

/-- `RAM` as data (10_state.md R24): the cells that do not hold 0, as (address, cell) pairs. -/
abbrev Memory := List (Nat × Int)

/-- The complete state of 10_state.md R10, and the parameters that are fixed with it. -/
structure State where
  /-- `A`, the accumulator (R11). -/
  a : Int
  /-- `X`, an index register (R11). -/
  x : Int
  /-- `Y`, an index register (R11). -/
  y : Int
  /-- `P`, the 8-bit flag field (R14, R15). -/
  p : BitVec 8
  /-- `PC`, a signed index into the program store, of no fixed width (R19). -/
  pc : Int
  /-- `SP`, an index into `RAM`, of no fixed width (R22, R23). -/
  sp : Int
  /-- `RAM`, `RAM_LEN` cells (R24). -/
  ram : Memory
  /-- `halted`, half of the halt latch (R26). -/
  halted : Bool
  /-- `halt_reason`, the other half (R26). -/
  haltReason : Option HaltReason
  /-- The parameters of 00_scope.md R5: "not state", fixed at construction (R10, log 3). -/
  cfg : Config
deriving DecidableEq, Repr

/-- The reasons a step can end in `Host.Outcome.fault`: none. Each of the spec's halts is taken as
60_exceptions.md R134 describes it, a next state with the halt latch set, so nothing raises a value
of this type and it has no constructor (log 1). Safe: no step can answer a fault. -/
inductive Fault where
deriving DecidableEq, Repr

/-- The reasons for `Host.Outcome.refused`. No step raises one: only `construct` does, for
arguments that the spec leaves outside the model. -/
inductive Refusal where
  /-- Raised by an arm of `exec` that has no meaning yet: there is none. Safe. -/
  | notModelled (mnemonic : String)
  /-- Raised by `construct` for a `ram_size` below 1 (70_reset_and_hazards.md R161, U15: `refuse`).
  Safe: no claim about such a machine. -/
  | ramSizeBelowOne (size : Int)
  /-- Raised by `construct` for a finite `CELL_W` below 2 (00_scope.md R5, R8). Safe. -/
  | cellWidthBelowTwo
  /-- Raised by `construct` for a program cell that a finite `CELL_W` cannot hold (R8). Safe. -/
  | programCellOutsideWidth (v : Int)
deriving DecidableEq, Repr

/-- What the handlers and the step answer. -/
abbrev Result := Host.Outcome State Fault Refusal

/-- The state of 10_state.md R30 for the parameters `c`: every register, every flag and every `RAM`
cell zero, `PC` zero, `SP = RAM_LEN - 1`, not halted. -/
def State.ofConfig (c : Config) : State :=
  { a := 0, x := 0, y := 0, p := 0, pc := 0, sp := (c.ramLen : Int) - 1, ram := [],
    halted := false, haltReason := none, cfg := c }

/-- The machine right after reset, which is construction (70_reset_and_hazards.md R160), of the
reference configuration (log 4). -/
def State.reset : State := State.ofConfig Config.reference

end Sys2Proof.Machine
end

