-- ==== Sys2Proof/Machine/Flags.lean ====
section
/-! DEFINITION. The flags register `P` (10_state.md R14 to R18). -/

namespace Sys2Proof.Machine

/-- The eight named flags of R14; there is no ninth (R18, U3). -/
inductive Flag where
  | c | z | i | d | s | b | v | n
deriving DecidableEq, Repr

/-- The bit position of each flag (R15, by decision D6, log 8). -/
def flagBit : Flag → Nat
  | .c => 0
  | .z => 1
  | .i => 2
  | .d => 3
  | .s => 4
  | .b => 5
  | .v => 6
  | .n => 7

/-- The mask of a flag (R15). -/
def flagMask (f : Flag) : BitVec 8 := 1#8 <<< flagBit f

/-- `test(flag)` (R18): whether the named bit is 1. -/
def flagTest (p : BitVec 8) (f : Flag) : Bool := p.getLsbD (flagBit f)

/-- `set(flag)` (R18): the named bit becomes 1, "the other seven unchanged". -/
def flagSet (p : BitVec 8) (f : Flag) : BitVec 8 := p ||| flagMask f

/-- `clear(flag)` (R18): the named bit becomes 0, "the other seven unchanged". -/
def flagClear (p : BitVec 8) (f : Flag) : BitVec 8 := p &&& ~~~flagMask f

/-- `raw()` (R15, R18): the byte of all eight flags. -/
def flagRaw (p : BitVec 8) : BitVec 8 := p

/-- The flag computation of `CMY` (42_arith_compare.md R113): `Z` is "always written, to 1 or to
0", and no other flag is. -/
def flagsAfterCompare (p : BitVec 8) (equal : Bool) : BitVec 8 :=
  if equal then flagSet p .z else flagClear p .z

end Sys2Proof.Machine
end

