-- ==== Sys2Proof/Machine/Ops.lean ====
section
/-! DEFINITION. The named operations over registers, memory and the halt latch. -/

namespace Sys2Proof.Machine

/-! ## Registers (10_state.md R13): set, and increment with a step for `X` and `PC` -/

def State.setA (s : State) (v : Int) : State := { s with a := v }
def State.setX (s : State) (v : Int) : State := { s with x := v }
def State.setY (s : State) (v : Int) : State := { s with y := v }
def State.setP (s : State) (v : BitVec 8) : State := { s with p := v }
def State.setPc (s : State) (v : Int) : State := { s with pc := v }
def State.setSp (s : State) (v : Int) : State := { s with sp := v }
def State.setRam (s : State) (m : Memory) : State := { s with ram := m }

/-- The increment helper of `PC`: the internal and the terminal advance with step 1, `BNE` with its
operand (R13). `PC` has no width (R19). -/
def State.advancePc (s : State) (k : Int) : State := s.setPc (s.pc + k)

/-- The increment helper of `X` (R13); its result is normalised (00_scope.md R8). -/
def State.advanceX (s : State) (k : Int) : State := s.setX (normCell s.cfg.cellW (s.x + k))

/-! ## Taking a halt: the one exceptional event (60_exceptions.md) -/

/-- `raise <Reason>(info)` (R134): the latch is set with the reason and nothing else changes:
nothing is saved, no flag, no `SP`, no vector. There is no return from it (R137). -/
def State.raise (s : State) (r : HaltReason) : State :=
  { s with halted := true, haltReason := some r }

/-- A statement that can raise, and the statements after it (00_scope.md R7, 60_exceptions.md
R135): on a failure the handler stops in the state `s` it had reached. -/
def attempt {α : Type} (s : State) (r : Except HaltReason α) (k : α → State) : State :=
  match r with
  | .ok v => k v
  | .error e => s.raise e

/-! ## Memory as data -/

/-- What a cell that nothing has written reads as: 0, its reset value (10_state.md R30). -/
def Memory.unlisted : Int := 0

/-- The cell at address `a`, "exactly as stored" (20_memory.md R44). -/
def Memory.read : Memory → Nat → Int
  | [], _ => Memory.unlisted
  | (b, v) :: rest, a => if b = a then v else Memory.read rest a

/-- The list without an entry for `a`. -/
def Memory.erase (m : Memory) (a : Nat) : Memory := m.filter (fun c => c.1 != a)

/-- The list with an entry for `a` before the first higher address. -/
def Memory.insert : Memory → Nat → Int → Memory
  | [], a, v => [(a, v)]
  | (b, w) :: rest, a, v =>
    if a < b then (a, v) :: (b, w) :: rest else (b, w) :: Memory.insert rest a v

/-- `RAM[a] <- v`, "stored whole" (20_memory.md R45), keeping the canonical form: a cell that
holds what an unlisted one reads as is not listed. -/
def Memory.write (m : Memory) (a : Nat) (v : Int) : Memory :=
  if v = Memory.unlisted then m.erase a else (m.erase a).insert a v

/-- The canonical form: addresses strictly rising and inside `RAM`, no entry equal to what an
unlisted address reads as (log 2). -/
abbrev Memory.wf (ramLen : Nat) (m : Memory) : Prop :=
  m.Pairwise (fun c d => c.1 < d.1) ∧ ∀ c ∈ m, c.2 ≠ Memory.unlisted ∧ c.1 < ramLen

/-! ## The access primitives (20_memory.md R43 to R45) -/

/-- The bounds test of an index or address against a length, both bounds (R43, R45, C3). -/
def inBounds (i : Int) (len : Nat) : Bool := decide (0 ≤ i) && decide (i < (len : Int))

/-- `ProgRead(i)` (R43). -/
def progRead (s : State) (i : Int) : Except HaltReason Int :=
  if inBounds i s.cfg.program.length then .ok (s.cfg.program.getD i.toNat 0)
  else .error (.programOutOfBounds i)

/-- `MemRead(a, 1)` (R44): no side effect. -/
def memRead (s : State) (a : Int) : Except HaltReason Int :=
  if inBounds a s.cfg.ramLen then .ok (s.ram.read a.toNat) else .error (.addressOutOfBounds a)

/-- `MemWrite(a, 1, v)` (R45): the one cell, or no write at all. -/
def memWrite (s : State) (a : Int) (v : Int) : Except HaltReason State :=
  if inBounds a s.cfg.ramLen then .ok (s.setRam (s.ram.write a.toNat v))
  else .error (.addressOutOfBounds a)

/-! ## The loop's terminal advance -/

/-- "After a handler returned `true` the loop adds 1 to `PC`"; after one that returned `false`,
which is one that raised, "the loop does not touch `PC`" (40_engine.md R83, R87). -/
def terminalAdvance : Result → Result
  | .next t => .next (if t.halted then t else t.advancePc 1)
  | .fault f => .fault f
  | .refused r => .refused r

end Sys2Proof.Machine
end

