-- ==== Sys2Proof/Machine/Operands.lean ====
section
/-! DEFINITION. Fetch, the operand forms, and the `RAM` address each instruction uses. -/

namespace Sys2Proof.Machine

/-! ## Fetch -/

/-- The cells of the program store from `PC` on; none when `PC` is outside it (40_engine.md R80). -/
def fetchCells (s : State) : List Int :=
  if s.pc < 0 then [] else s.cfg.program.drop s.pc.toNat

/-- The instruction at `PC` (R80 to R82): decoding "depends on `PC` alone, not on how `PC` got its
value" (30_encoding.md R69). -/
def fetch (s : State) : DecodeResult := decode (fetchCells s)

/-! ## Operand fetch -/

/-- The value `ProgRead(PC)` gives once `PC` is on the operand cell (40_engine.md R84): the decoded
operand, or `ProgramOutOfBounds(PC)` where the program store has no such cell (R62, R67, log 7). -/
def readOperand (o : Operand) (s : State) : Except HaltReason Int :=
  match o with
  | some v => .ok v
  | none => .error (.programOutOfBounds s.pc)

/-- `FetchOperand()` and the rest of the handler (R84, R86): the internal advance, "not undone" if
the read fails (log 9). -/
def fetchOperand (o : Operand) (s : State) (k : State → Int → State) : State :=
  let s₁ := s.advancePc 1
  attempt s₁ (readOperand o s₁) (k s₁)

/-! ## Addresses (41_load_store.md R99, 20_memory.md R42) -/

/-- Register-indirect through `X`: `EA = X`, "with no displacement and no change of `X`" (R99). -/
def indirectX (s : State) : Int := s.x

/-- The push address of `JSR`: "`SP` (before the decrement)" (R42, 43_control.md R124). -/
def pushAddress (s : State) : Int := s.sp

/-- The pop address of `RTS`, in the state after its increment of `SP`: `SP + RTS_READ_OFFSET`
(R42, 43_control.md R125, log 13). -/
def popAddress (s : State) : Int := s.sp + (s.cfg.rtsReadOffset.val : Int)

/-- The `RAM` address an instruction writes, if it is one that writes `RAM` (R42). -/
def storeAddress : Instr → State → Option Int
  | .sta a, _ => a
  | .stax, s => some (indirectX s)
  | .jsr _, s => some (pushAddress s)
  | .brk, _ | .lda _, _ | .adc _, _ | .ldx _, _ | .inx, _ | .cmy _, _ | .bne _, _ | .dey, _
  | .ldy _, _ | .rts, _ | .invalid _, _ => none

/-- The `RAM` address an instruction reads, if it is one that reads `RAM` (R42). -/
def loadAddress : Instr → State → Option Int
  | .ldy a, _ => a
  | .rts, s => some (popAddress (s.setSp (s.sp + 1)))
  | .brk, _ | .lda _, _ | .adc _, _ | .sta _, _ | .ldx _, _ | .inx, _ | .cmy _, _ | .bne _, _
  | .stax, _ | .dey, _ | .jsr _, _ | .invalid _, _ => none

/-! ## Placing cells in a program store (for `State.withFetchWord`) -/

/-- `prog` with the cells `cs` from index `n` on, padded with zeros where it was shorter. -/
def placeCells (prog : List Int) (n : Nat) (cs : List Int) : List Int :=
  prog.take n ++ List.replicate (n - prog.length) 0 ++ cs ++ prog.drop (n + cs.length)

/-- `s` with the cells `cs` where its next step fetches, and able to take that step: the halt latch
open and `PC` an index (log 5). -/
def placeAtFetch (s : State) (cs : List Int) : State :=
  { s with
    cfg := { s.cfg with program := placeCells s.cfg.program s.pc.toNat cs },
    pc := s.pc.toNat, halted := false, haltReason := none }

end Sys2Proof.Machine
end

