-- ==== Sys2Proof/Machine/Arith.lean ====
section
/-! DEFINITION. The handlers of the arithmetic and compare instructions (42_arith_compare.md). -/

namespace Sys2Proof.Machine

/-- `ADC v` (R110): `A <- norm(A + v)`; the carry is neither added in nor written. -/
def execAdc (o : Operand) (s : State) : Result :=
  .next (fetchOperand o s fun s₁ v => s₁.setA (normCell s₁.cfg.cellW (s₁.a + v)))

/-- `INX` (R111): `X <- norm(X + 1)`; it cannot fault. -/
def execInx (s : State) : Result := .next (s.advanceX 1)

/-- `DEY` (R112): `Y <- norm(Y - 1)`; it cannot fault. -/
def execDey (s : State) : Result := .next (s.setY (normCell s.cfg.cellW (s.y - 1)))

/-- `CMY v` (R113): `Z` becomes 1 if `v = Y`, else 0. -/
def execCmy (o : Operand) (s : State) : Result :=
  .next (fetchOperand o s fun s₁ v => s₁.setP (flagsAfterCompare s₁.p (v == s₁.y)))

end Sys2Proof.Machine
end

