-- ==== Sys2Proof/Machine/Control.lean ====
section
/-! DEFINITION. The handlers of the control instructions and of the invalid opcode (43_control.md). -/

namespace Sys2Proof.Machine

/-- `BRK` (R120): `raise Break`. -/
def execBrk (s : State) : Result := .next (s.raise .brk)

/-- `BNE k` (R121, R122): the operand is fetched whether or not `Z` is set (D5, log 11); if `Z` is
clear, `PC <- PC + k`. Nothing but `PC` changes. -/
def execBne (o : Operand) (s : State) : Result :=
  .next (fetchOperand o s fun s₁ k => if flagTest s₁.p .z then s₁ else s₁.advancePc k)

/-- `JSR t` (R123), in the order J1 to J5: the advance, the push, the decrement, the operand read
(after the push: D4, log 10), `PC <- t - 1`. -/
def execJsr (o : Operand) (s : State) : Result :=
  let s₁ := s.advancePc 1
  .next <|
    attempt s₁ (memWrite s₁ (pushAddress s₁) (normCell s₁.cfg.cellW s₁.pc)) fun s₂ =>
      let s₃ := s₂.setSp (s₂.sp - 1)
      attempt s₃ (readOperand o s₃) fun t => s₃.setPc (t - 1)

/-- `RTS` (R125), in the order T1 to T3: the increment (not undone if the read fails: log 9), the
pop, `PC <- r`. -/
def execRts (s : State) : Result :=
  let s₁ := s.setSp (s.sp + 1)
  .next (attempt s₁ (memRead s₁ (popAddress s₁)) fun r => s₁.setPc r)

/-- The invalid-opcode handler (R128): `raise InvalidOpcode(op)`. Its diagnostic is outside the
CORE (D14, log 17). -/
def execInvalid (op : Int) (s : State) : Result := .next (s.raise (.invalidOpcode op))

end Sys2Proof.Machine
end

