-- ==== Sys2Proof/Machine/LoadStore.lean ====
section
/-! DEFINITION. The handlers of the loads and stores (41_load_store.md). -/

namespace Sys2Proof.Machine

/-- `LDA v` (R100): `A <- v`; no flag is written. -/
def execLda (o : Operand) (s : State) : Result :=
  .next (fetchOperand o s fun s₁ v => s₁.setA v)

/-- `LDX v` (R101): `X <- v`, with no bounds check on `v`; no flag is written. -/
def execLdx (o : Operand) (s : State) : Result :=
  .next (fetchOperand o s fun s₁ v => s₁.setX v)

/-- `LDY a` (R102): `Y <- RAM[a]`, bounds-checked; no flag is written. -/
def execLdy (o : Operand) (s : State) : Result :=
  .next (fetchOperand o s fun s₁ a => attempt s₁ (memRead s₁ a) fun v => s₁.setY v)

/-- `STA a` (R103): `RAM[a] <- A`, bounds-checked; no flag is written. -/
def execSta (o : Operand) (s : State) : Result :=
  .next (fetchOperand o s fun s₁ a => attempt s₁ (memWrite s₁ a s₁.a) fun s₂ => s₂)

/-- `STAX` (R104): `RAM[X] <- A`, bounds-checked; `X` is unchanged and no flag is written. -/
def execStax (s : State) : Result :=
  .next (attempt s (memWrite s (indirectX s) s.a) fun s₁ => s₁)

end Sys2Proof.Machine
end

