-- ==== Sys2Proof/Machine/Dispatch.lean ====
section
/-! DEFINITION. `opcode_dispatch`: the handler of each instruction (40_engine.md R82). -/

namespace Sys2Proof.Machine

/-- The handler of the instruction, run on the state at its opcode cell. -/
def exec (i : Instr) (s : State) : Host.Outcome State Fault Refusal :=
  match i with
  | .brk => Sys2Proof.Machine.execBrk s
  | .lda v => Sys2Proof.Machine.execLda v s
  | .adc v => Sys2Proof.Machine.execAdc v s
  | .sta a => Sys2Proof.Machine.execSta a s
  | .ldx v => Sys2Proof.Machine.execLdx v s
  | .inx => Sys2Proof.Machine.execInx s
  | .cmy v => Sys2Proof.Machine.execCmy v s
  | .bne k => Sys2Proof.Machine.execBne k s
  | .stax => Sys2Proof.Machine.execStax s
  | .dey => Sys2Proof.Machine.execDey s
  | .ldy a => Sys2Proof.Machine.execLdy a s
  | .jsr t => Sys2Proof.Machine.execJsr t s
  | .rts => Sys2Proof.Machine.execRts s
  | .invalid op => Sys2Proof.Machine.execInvalid op s

end Sys2Proof.Machine
end

