-- ==== Sys2Proof/Machine/Step.lean ====
section
/-! DEFINITION. One step of the engine (40_engine.md R85), and the host's way to place a word. -/

namespace Sys2Proof.Machine

/-- `Step()` (R85): a halted machine changes nothing (D7, log 12); otherwise fetch (a `PC` outside
the program raises `ProgramOutOfBounds(PC)`, R80), the handler, the terminal advance. Its boolean is
`stepBool` of Machine/HostInterface.lean. -/
def step (s : State) : Host.Outcome State Fault Refusal :=
  if s.halted then .next s
  else
    match fetch s with
    | .noOpcodeCell => .next (s.raise (.programOutOfBounds s.pc))
    | .instr i _ => terminalAdvance (exec i s)

/-- `s` with the cells of a table word where `step` fetches its next instruction (log 5, log 6). -/
def State.withFetchWord (s : State) (nbits w : Nat) : State := placeAtFetch s (tableCells nbits w)

end Sys2Proof.Machine
end

