-- ==== Sys2Proof/Machine/Pseudocode.lean ====
section
/-! DEFINITION. The spec's own handler sequences, statement by statement, each reading its operand
from the program store when its pseudocode does. `step` decodes first instead, which 30_encoding.md
R62 permits "provided its results equal those of the handler sequences"; an obligation states that
they do. -/

namespace Sys2Proof.Machine

/-- A block of pseudocode (00_scope.md R7): statements over the state, in which `throw` is `raise`;
what the statements before it did stays (60_exceptions.md R135). -/
abbrev Block := ExceptT HaltReason (StateM State)

/-- A primitive that only reads. -/
def Block.ask (f : State → Except HaltReason Int) : Block Int := do
  match f (← get) with
  | .ok v => pure v
  | .error r => throw r

/-- `MemWrite(a, 1, v)` as a statement (20_memory.md R45). -/
def Block.store (a : Int) (v : Int) : Block Unit := do
  match memWrite (← get) a v with
  | .ok t => set t
  | .error r => throw r

/-- `FetchOperand()` (40_engine.md R84). -/
def Block.fetchOperand : Block Int := do
  modify fun s => s.setPc (s.pc + 1)
  Block.ask fun s => progRead s s.pc

def handlerBrk : Block Unit := throw .brk

def handlerLda : Block Unit := do
  let v ← Block.fetchOperand
  modify fun s => s.setA v

def handlerAdc : Block Unit := do
  let v ← Block.fetchOperand
  modify fun s => s.setA (normCell s.cfg.cellW (s.a + v))

def handlerSta : Block Unit := do
  let a ← Block.fetchOperand
  Block.store a (← get).a

def handlerLdx : Block Unit := do
  let v ← Block.fetchOperand
  modify fun s => s.setX v

def handlerInx : Block Unit := modify fun s => s.setX (normCell s.cfg.cellW (s.x + 1))

def handlerCmy : Block Unit := do
  let v ← Block.fetchOperand
  if v = (← get).y then modify fun s => s.setP (flagSet s.p .z)
  else modify fun s => s.setP (flagClear s.p .z)

def handlerBne : Block Unit := do
  let k ← Block.fetchOperand
  if flagTest (← get).p .z = false then modify fun s => s.setPc (s.pc + k)

def handlerStax : Block Unit := do
  let s ← get
  Block.store s.x s.a

def handlerDey : Block Unit := modify fun s => s.setY (normCell s.cfg.cellW (s.y - 1))

def handlerLdy : Block Unit := do
  let a ← Block.fetchOperand
  let v ← Block.ask fun s => memRead s a
  modify fun s => s.setY v

def handlerJsr : Block Unit := do
  modify fun s => s.setPc (s.pc + 1)                             -- J1
  Block.store (← get).sp (normCell (← get).cfg.cellW (← get).pc)     -- J2
  modify fun s => s.setSp (s.sp - 1)                             -- J3
  let t ← Block.ask fun s => progRead s s.pc                     -- J4
  modify fun s => s.setPc (t - 1)                                -- J5

def handlerRts : Block Unit := do
  modify fun s => s.setSp (s.sp + 1)                             -- T1
  let r ← Block.ask fun s => memRead s (s.sp + (s.cfg.rtsReadOffset.val : Int))   -- T2
  modify fun s => s.setPc r                                      -- T3

def handlerInvalid (op : Int) : Block Unit := throw (.invalidOpcode op)

/-- The opcode table: "missing entries map to a distinguished invalid-opcode handler"
(30_encoding.md R64, R65; 40_engine.md R82). -/
def handlerTable : List (Int × Block Unit) :=
  [(0, handlerBrk), (1, handlerLda), (2, handlerAdc), (3, handlerSta), (4, handlerLdx),
   (5, handlerInx), (6, handlerCmy), (7, handlerBne), (8, handlerStax), (9, handlerDey),
   (10, handlerLdy), (11, handlerJsr), (12, handlerRts)]

/-- `Handler(op)` (R82). -/
def handler (op : Int) : Block Unit := (handlerTable.lookup op).getD (handlerInvalid op)

/-- `Step()` as R85 writes it: its boolean and the state it leaves. -/
def pseudoStep (s : State) : Bool × State :=
  if s.halted then (false, s)
  else
    match ((Block.ask fun s => progRead s s.pc) >>= handler).run s with
    | (.error r, t) => (false, t.raise r)
    | (.ok (), t) => (true, t.setPc (t.pc + 1))

end Sys2Proof.Machine
end

