-- ==== Sys2Proof/Machine/HostInterface.lean ====
section
/-! DEFINITION. What the host can do: construct, step, run, inspect (10_state.md R29, R160, R85, R90). -/

namespace Sys2Proof.Machine

/-- `new(program, ram_size)` (70_reset_and_hazards.md R160) with the OPEN parameters of 00_scope.md
R5. The program is not validated (R161); only what the spec leaves outside the model is refused:
`ram_size < 1` (R161, D9, log 15), a finite width below 2 or a cell it cannot hold (R8, log 20). -/
def construct (program : List Int) (ramSize : Int) (cellW : CellWidth := .unbounded)
    (rtsReadOffset : Fin 2 := 0) : Result :=
  if ramSize < 1 then .refused (.ramSizeBelowOne ramSize)
  else if legalWidth cellW then
    match program.find? (fun v => !fits cellW v) with
    | some v => .refused (.programCellOutsideWidth v)
    | none => .next (State.ofConfig ⟨ramSize.toNat, program, cellW, rtsReadOffset⟩)
  else .refused .cellWidthBelowTwo

/-- The boolean of `Step()` (40_engine.md R85): `true` for continue. The step returns `false`
exactly when it leaves the halt latch set (R83). -/
def stepBool (s : State) : Bool :=
  match step s with
  | .next t => !t.halted
  | .fault _ => false
  | .refused _ => false

/-- `Run()` (R90) with a bound on the number of steps, which the machine does not have (D12, log
19): the state it stopped in, and the halt reason if it got there. -/
def run : Nat → State → Option HaltReason × State
  | 0, s => (none, s)
  | n + 1, s =>
    match step s with
    | .next t => if t.halted then (t.haltReason, t) else run n t
    | .fault _ => (none, s)
    | .refused _ => (none, s)

/-- The numeric code of a halt reason (10_state.md R27, D8, log 16). -/
def HaltReason.code : HaltReason → Nat
  | .brk => 0
  | .invalidOpcode _ => 1
  | .addressOutOfBounds _ => 2
  | .programOutOfBounds _ => 3

/-- The payload carried beside the code (R27, 60_exceptions.md R130). -/
def HaltReason.payload : HaltReason → Option Int
  | .brk => none
  | .invalidOpcode code => some code
  | .addressOutOfBounds addr => some addr
  | .programOutOfBounds index => some index

/-- The list of all `RAM_LEN` cells, address 0 first (R29). -/
def State.ramCells (s : State) : List Int := (List.range s.cfg.ramLen).map s.ram.read

/-- What the read-only accessors of R29 return, and the halt latch (D13). -/
structure Snapshot where
  a : Int
  x : Int
  y : Int
  raw : BitVec 8
  pc : Int
  sp : Int
  ram : List Int
  halted : Bool
  haltReason : Option HaltReason
deriving DecidableEq, Repr

/-- The accessors of R29; `test` of one flag is `flagTest`. They change no state. -/
def State.snapshot (s : State) : Snapshot :=
  { a := s.a, x := s.x, y := s.y, raw := flagRaw s.p, pc := s.pc, sp := s.sp, ram := s.ramCells,
    halted := s.halted, haltReason := s.haltReason }

end Sys2Proof.Machine
end

