-- ==== Sys2Proof/Safety.lean ====
section
/-! DEFINITION. What a safe run is (60_exceptions.md R139), and the invariants of the state. -/

namespace Sys2Proof.Machine

/-- `t` is the state after `k` steps from `s`. -/
def Reaches (k : Nat) (s t : State) : Prop := Host.Core.run core k s = .next t

/-- A completed run: it halted with `Break` (R139, 40_engine.md R92). -/
def Completes (s : State) : Prop :=
  ∃ k t, Reaches k s t ∧ t.halted = true ∧ t.haltReason = some .brk

/-- A run that has gone wrong: it halted with one of the three faults (R139). -/
def GoesWrong (s : State) : Prop :=
  ∃ k t r, Reaches k s t ∧ t.halted = true ∧ t.haltReason = some r ∧ r ≠ .brk

/-- A run that never halts, a hang (R139, R91). -/
def Hangs (s : State) : Prop := ∀ k t, Reaches k s t → t.halted = false

/-- The halt latch is consistent (10_state.md R26): a reason is recorded exactly when `halted`. -/
def LatchConsistent (s : State) : Prop := s.halted = s.haltReason.isSome

/-- `RAM` has its canonical form (log 2). -/
def RamCanonical (s : State) : Prop := s.ram.wf s.cfg.ramLen

/-- `-1 <= SP <= RAM_LEN` (10_state.md R23), and while the machine runs `SP < RAM_LEN`. -/
def SpWithin (s : State) : Prop :=
  -1 ≤ s.sp ∧ s.sp ≤ s.cfg.ramLen ∧ (s.halted = false → s.sp < s.cfg.ramLen)

/-- Every flag but `Z` is 0 (10_state.md R17). -/
def OnlyZeroFlag (s : State) : Prop := ∀ f, f ≠ .z → flagTest s.p f = false

/-- Every register, `RAM` cell and program cell holds a value of the width `CELL_W`
(00_scope.md R8, 42_arith_compare.md R115). -/
def ValuesFit (s : State) : Prop :=
  fits s.cfg.cellW s.a = true ∧ fits s.cfg.cellW s.x = true ∧ fits s.cfg.cellW s.y = true ∧
  (∀ a : Nat, fits s.cfg.cellW (s.ram.read a) = true) ∧
  (∀ v ∈ s.cfg.program, fits s.cfg.cellW v = true)

end Sys2Proof.Machine
end

