-- ==== Sys2Proof/Certificates/Slice0/Obligations.lean ====
section
/-! DEFINITION. The statements for the provers. Each formalises the rules of spec/ its docstring names.

In a statement `progRead s s.pc = .ok op` says that the program store holds the opcode cell `op` at
`PC`, and `s.halted = false` that the machine has not halted. `exec i s` is the handler's state,
before the terminal advance (40_engine.md R87); `step s` is the state after the whole step. -/

open Sys2Proof Sys2Proof.Machine

/-! ## Encoding and decoding -/

/-- Words written out from the table of 30_encoding.md R64 (sections 3 and 6) decode to the
instructions they stand for, one of each family, and 256, 13 and -1 to none of the thirteen. -/
def Obligations.WrittenOutWordsDecode : Prop :=
  decode [1, 100, 2, 7] = .instr (.lda (some 100)) [2, 7] ∧
  decode [3, 15, 0] = .instr (.sta (some 15)) [0] ∧
  decode [8, 5] = .instr .stax [5] ∧
  decode [2, -7] = .instr (.adc (some (-7))) [] ∧
  decode [6, 0, 7] = .instr (.cmy (some 0)) [7] ∧
  decode [7, -5, 0] = .instr (.bne (some (-5))) [0] ∧
  decode [11, 5] = .instr (.jsr (some 5)) [] ∧
  decode [12] = .instr .rts [] ∧
  decode [256] = .instr (.invalid 256) [] ∧
  decode [13, 1] = .instr (.invalid 13) [1] ∧
  decode [-1] = .instr (.invalid (-1)) []

/-- Decode after encode, for every well-formed instruction and every operand value (30_encoding.md
sections 1 to 5): a complete instruction is read back with what follows it left over, and one whose
operand cell the program lacks is read back from the end of the program. -/
def Obligations.DecodeOfEncodeIsTheInstruction : Prop :=
  ∀ (i : Instr) (rest : List Int), i.wf = true →
    (i.complete = true → decode (encode i ++ rest) = .instr i rest) ∧
    (i.complete = false → decode (encode i) = .instr i [])

/-- Encode after decode (30_encoding.md sections 1 to 5): what the decoder read, encoded, is the
cells it consumed; it is well formed; and it lacks its operand cell only at the end. -/
def Obligations.EncodeOfDecodeIsTheCells : Prop :=
  ∀ (cells : List Int) (i : Instr) (rest : List Int), decode cells = .instr i rest →
    i.wf = true ∧ encode i ++ rest = cells ∧ (i.complete = false → rest = [])

/-- The rows of spec/opcode_table.json, read as 30_encoding.md section 6 says, against the decoder:
for every opcode cell exactly the row of the decoded instruction matches, with its length. That a row
matches by equality with the whole cell, and the invalid row what no other row does, is the spec's
decision D16 (log 23, a DESIGN CHOICE). For cells with no width; a finite one is
`FiniteWidthRowsMatchTheDecodedInstruction`. -/
def Obligations.OpcodeTableRowMatchesDecodedInstruction : Prop :=
  ∀ (op : Int) (cells rest : List Int) (i : Instr), decode (op :: cells) = .instr i rest →
    (∃ r ∈ opcodeTable, r.mnemonic = i.mnemonic) ∧
    ∀ r ∈ opcodeTable, (r.matchesCell .unbounded op = true ↔ r.mnemonic = i.mnemonic) ∧
      (r.mnemonic = i.mnemonic → r.lengthCells = i.lengthCells)

/-! ## The engine -/

/-- When the program store holds the cells of a well-formed instruction at `PC` (all of them, or the
opcode cell alone at the end of the program), the step is that instruction's handler and then, unless
it halted, the terminal advance (40_engine.md sections 3 to 6). -/
def Obligations.StepRunsTheInstructionAtPc : Prop :=
  ∀ (s t : State) (i : Instr) (rest : List Int), s.halted = false → 0 ≤ s.pc →
    i.wf = true → (i.complete = true ∨ rest = []) →
    s.cfg.program.drop s.pc.toNat = encode i ++ rest → exec i s = .next t →
    step s = .next (if t.halted then t else { t with pc := t.pc + 1 })

/-- Assembly is cell for cell (30_encoding.md section 5): in an assembled program the instruction that
stands after the instructions `before` is found, and runs, at the index of their last cell plus 1. -/
def Obligations.AssembledInstructionRunsAtItsIndex : Prop :=
  ∀ (s t : State) (before after : List Instr) (i : Instr), s.halted = false →
    i.wf = true → i.complete = true → s.cfg.program = assemble (before ++ i :: after) →
    s.pc = (assemble before).length → exec i s = .next t →
    step s = .next (if t.halted then t else { t with pc := t.pc + 1 })

/-- 40_engine.md R80: outside the program the opcode fetch raises `ProgramOutOfBounds(PC)` and
nothing else changes; inside it, the opcode cell is `Program[PC]`. -/
def Obligations.OpcodeFetchReadsTheCellAtPcOrHalts : Prop :=
  ∀ s : State, s.halted = false →
    (s.pc < 0 ∨ (s.cfg.program.length : Int) ≤ s.pc →
      step s = .next { s with halted := true, haltReason := some (.programOutOfBounds s.pc) }) ∧
    (0 ≤ s.pc → s.pc < (s.cfg.program.length : Int) →
      ∃ i rest, fetch s = .instr i rest ∧ s.cfg.program[s.pc.toNat]? = some i.opcode ∧
        step s = terminalAdvance (exec i s))

/-- Every step of every state has a next state: no fault, no refusal (40_engine.md section 5: "A
step is total and deterministic"). -/
def Obligations.EveryStepHasANextState : Prop :=
  ∀ s : State, ∃ t, step s = .next t

/-- A halted machine stays as it is, for every number of steps, and its step answers `false`
(40_engine.md section 5; for `Break` by the spec's decision D7, log 12). -/
def Obligations.HaltedMachineNeverChanges : Prop :=
  ∀ (s : State) (k : Nat), s.halted = true → Reaches k s s ∧ stepBool s = false

/-- Decoding first gives the results of the spec's handler sequences, state and boolean, faults
included (30_encoding.md section 1 requires it; 40_engine.md section 5). The sequences follow the
spec's decisions D3, D4, D5 and D7 (logs 9, 10, 11, 12). -/
def Obligations.StepEqualsTheHandlerSequences : Prop :=
  ∀ s : State, step s = .next (pseudoStep s).2 ∧ stepBool s = (pseudoStep s).1

/-- `PC` and the halt after one step, for every instruction, with and without a fault: the table of
40_engine.md section 6, and the conditions of 60_exceptions.md section 1 under which a step halts. The
`PC` that a fault leaves is the spec's decision D3 (log 9), and `JSR` and `BNE` at the end of the
program follow D4 and D5 (logs 10, 11). -/
def Obligations.PcAfterOneStep : Prop :=
  ∀ (s t : State), s.halted = false → step s = .next t →
    (fetch s = .noOpcodeCell → t.halted = true ∧ t.pc = s.pc) ∧
    ∀ i rest, fetch s = .instr i rest →
      match i with
      | .brk | .invalid _ => t.halted = true ∧ t.pc = s.pc
      | .inx | .dey => t.halted = false ∧ t.pc = s.pc + 1
      | .stax =>
        (t.halted = true ↔ s.x < 0 ∨ (s.cfg.ramLen : Int) ≤ s.x) ∧
        t.pc = if t.halted then s.pc else s.pc + 1
      | .lda o | .adc o | .ldx o | .cmy o =>
        (t.halted = true ↔ o = none) ∧ t.pc = if t.halted then s.pc + 1 else s.pc + 2
      | .sta o | .ldy o =>
        (t.halted = true ↔ o = none ∨ ∃ a, o = some a ∧ (a < 0 ∨ (s.cfg.ramLen : Int) ≤ a)) ∧
        t.pc = if t.halted then s.pc + 1 else s.pc + 2
      | .bne none => t.halted = true ∧ t.pc = s.pc + 1
      | .bne (some k) =>
        t.halted = false ∧ t.pc = if flagTest s.p .z then s.pc + 2 else s.pc + 2 + k
      | .jsr none => t.halted = true ∧ t.pc = s.pc + 1
      | .jsr (some k) =>
        (t.halted = true ↔ s.sp < 0 ∨ (s.cfg.ramLen : Int) ≤ s.sp) ∧
        t.pc = if t.halted then s.pc + 1 else k
      | .rts =>
        (∀ q : Int, q = s.sp + 1 + s.cfg.rtsReadOffset.val →
          (t.halted = true ↔ q < 0 ∨ (s.cfg.ramLen : Int) ≤ q) ∧
          ∀ r, memRead s q = .ok r → t.pc = r + 1) ∧
        (t.halted = true → t.pc = s.pc)

/-! ## Loads and stores -/

/-- `LDA v` and `LDX v` load the whole operand, with no bounds check and no flag, and change nothing
else (41_load_store.md section 2). -/
def Obligations.LdaAndLdxLoadTheOperand : Prop :=
  ∀ (s : State) (v : Int),
    exec (.lda (some v)) s = .next { s with a := v, pc := s.pc + 1 } ∧
    exec (.ldx (some v)) s = .next { s with x := v, pc := s.pc + 1 } ∧
    (s.halted = false → progRead s (s.pc + 1) = .ok v →
      (progRead s s.pc = .ok 1 → step s = .next { s with a := v, pc := s.pc + 2 }) ∧
      (progRead s s.pc = .ok 4 → step s = .next { s with x := v, pc := s.pc + 2 }))

/-- `LDY a` loads the cell `RAM[a]` and changes nothing else; outside `RAM` it halts with
`AddressOutOfBounds(a)`, `Y` unchanged (41_load_store.md section 2). `PC` then keeps its internal
advance by the spec's decision D3 (log 9). -/
def Obligations.LdyLoadsTheRamCell : Prop :=
  ∀ (s : State) (a v : Int),
    (memRead s a = .ok v →
      exec (.ldy (some a)) s = .next { s with y := v, pc := s.pc + 1 } ∧
      (s.halted = false → progRead s s.pc = .ok 10 → progRead s (s.pc + 1) = .ok a →
        step s = .next { s with y := v, pc := s.pc + 2 })) ∧
    (a < 0 ∨ (s.cfg.ramLen : Int) ≤ a →
      s.halted = false → progRead s s.pc = .ok 10 → progRead s (s.pc + 1) = .ok a →
      step s = .next { s with pc := s.pc + 1, halted := true,
                              haltReason := some (.addressOutOfBounds a) })

/-- `STA a` stores `A` whole in `RAM[a]` and changes no other cell and nothing else; outside `RAM` it
halts with `AddressOutOfBounds(a)` and no write occurs (41_load_store.md section 3). `PC` then keeps
its internal advance by the spec's decision D3 (log 9). -/
def Obligations.StaStoresTheAccumulator : Prop :=
  ∀ (s : State) (a : Int),
    (0 ≤ a → a < (s.cfg.ramLen : Int) →
      ∃ t, exec (.sta (some a)) s = .next t ∧
        t = { s with pc := s.pc + 1, ram := t.ram } ∧ memRead t a = .ok s.a ∧
        (∀ b, storeAddress (.sta (some a)) s ≠ some b → memRead t b = memRead s b) ∧
        (s.halted = false → progRead s s.pc = .ok 3 → progRead s (s.pc + 1) = .ok a →
          step s = .next { t with pc := s.pc + 2 })) ∧
    (a < 0 ∨ (s.cfg.ramLen : Int) ≤ a →
      s.halted = false → progRead s s.pc = .ok 3 → progRead s (s.pc + 1) = .ok a →
      step s = .next { s with pc := s.pc + 1, halted := true,
                              haltReason := some (.addressOutOfBounds a) })

/-- 41_load_store.md R104: `STAX` stores `A` in `RAM[X]`, changes no other cell and nothing else,
and needs no cell after its own; outside `RAM` it halts with `AddressOutOfBounds(X)`, `PC = p`, and
no write occurs. -/
def Obligations.StaxStoresTheAccumulatorAtX : Prop :=
  ∀ s : State,
    (encode .stax = [8] ∧ decode [8] = .instr .stax []) ∧
    (0 ≤ s.x → s.x < (s.cfg.ramLen : Int) →
      ∃ t, exec .stax s = .next t ∧
        t = { s with ram := t.ram } ∧ memRead t s.x = .ok s.a ∧
        (∀ b, storeAddress .stax s ≠ some b → memRead t b = memRead s b) ∧
        (s.halted = false → progRead s s.pc = .ok 8 →
          step s = .next { t with pc := s.pc + 1 })) ∧
    (s.x < 0 ∨ (s.cfg.ramLen : Int) ≤ s.x → s.halted = false → progRead s s.pc = .ok 8 →
      step s = .next { s with halted := true, haltReason := some (.addressOutOfBounds s.x) })

/-- A two-cell instruction (other than `JSR`) whose opcode cell is the last cell of the program halts
with `ProgramOutOfBounds(p+1)`, and nothing but `PC` and the latch changes (40_engine.md section 4).
That `PC` keeps its internal advance is the spec's decision D3 (log 9), and that `BNE` fetches its
operand whatever `Z` is, D5 (log 11). -/
def Obligations.MissingOperandCellHalts : Prop :=
  ∀ s : State,
    (∀ i ∈ [Instr.lda none, .adc none, .sta none, .ldx none, .cmy none, .bne none, .ldy none],
      exec i s = .next { s with pc := s.pc + 1, halted := true,
                                haltReason := some (.programOutOfBounds (s.pc + 1)) }) ∧
    (∀ op ∈ [(1 : Int), 2, 3, 4, 6, 7, 10],
      s.halted = false → progRead s s.pc = .ok op → s.pc + 1 = (s.cfg.program.length : Int) →
      step s = .next { s with pc := s.pc + 1, halted := true,
                              haltReason := some (.programOutOfBounds (s.pc + 1)) })

/-! ## Arithmetic and compare -/

/-- `ADC v` adds the operand to `A`, normalised to the cell width (exact without one), reads no
carry, writes no flag and changes nothing else (42_arith_compare.md section 1; the width is the
spec's decision D1, log 14). -/
def Obligations.AdcAddsTheOperand : Prop :=
  ∀ (s : State) (v : Int),
    exec (.adc (some v)) s =
      .next { s with a := normCell s.cfg.cellW (s.a + v), pc := s.pc + 1 } ∧
    (s.cfg.cellW = .unbounded → normCell s.cfg.cellW (s.a + v) = s.a + v) ∧
    (s.halted = false → progRead s s.pc = .ok 2 → progRead s (s.pc + 1) = .ok v →
      step s = .next { s with a := normCell s.cfg.cellW (s.a + v), pc := s.pc + 2 })

/-- 42_arith_compare.md R111: `INX` adds 1 to `X` through `normCell`, exactly where cells have no width,
changes nothing else, and cannot fault, even in the last cell. -/
def Obligations.InxIncrementsX : Prop :=
  ∀ s : State,
    (encode .inx = [5] ∧ decode [5] = .instr .inx []) ∧
    exec .inx s = .next { s with x := normCell s.cfg.cellW (s.x + 1) } ∧
    (s.halted = false → progRead s s.pc = .ok 5 →
      step s = .next { s with x := normCell s.cfg.cellW (s.x + 1), pc := s.pc + 1 } ∧
      (s.cfg.cellW = .unbounded → step s = .next { s with x := s.x + 1, pc := s.pc + 1 }))

/-- 42_arith_compare.md R112: `DEY` subtracts 1 from `Y` through `normCell`, exactly where cells have no
width (0 becomes -1), changes nothing else, writes no flag, and cannot fault. -/
def Obligations.DeyDecrementsY : Prop :=
  ∀ s : State,
    (encode .dey = [9] ∧ decode [9] = .instr .dey []) ∧
    exec .dey s = .next { s with y := normCell s.cfg.cellW (s.y - 1) } ∧
    (s.halted = false → progRead s s.pc = .ok 9 →
      step s = .next { s with y := normCell s.cfg.cellW (s.y - 1), pc := s.pc + 1 } ∧
      (s.cfg.cellW = .unbounded → step s = .next { s with y := s.y - 1, pc := s.pc + 1 }))

/-- `CMY v` makes `Z` 1 exactly when `v = Y`, leaves every other flag and everything else
(42_arith_compare.md section 2). -/
def Obligations.CmySetsZeroFlagOnEquality : Prop :=
  ∀ (s : State) (v : Int), ∃ t,
    exec (.cmy (some v)) s = .next t ∧
    t = { s with pc := s.pc + 1, p := t.p } ∧
    (flagTest t.p .z = true ↔ v = s.y) ∧
    (∀ f, f ≠ .z → flagTest t.p f = flagTest s.p f) ∧
    (s.halted = false → progRead s s.pc = .ok 6 → progRead s (s.pc + 1) = .ok v →
      step s = .next { t with pc := s.pc + 2 })

/-- `normCell` for a finite width `w >= 2` is the one integer of the signed range congruent to the value
modulo `2^w` (00_scope.md section 4, "the unique integer"; the width is the spec's decision D1, log
14), and it leaves a value of the range alone. -/
def Obligations.NormIsTheSignedWrap : Prop :=
  ∀ (w : Nat) (v : Int), 2 ≤ w →
    fits (.bits w) (normCell (.bits w) v) = true ∧
    (∃ q : Int, normCell (.bits w) v - v = q * 2 ^ w) ∧
    (∀ r : Int, fits (.bits w) r = true → (∃ q : Int, r - v = q * 2 ^ w) →
      r = normCell (.bits w) v) ∧
    (fits (.bits w) v = true → normCell (.bits w) v = v)

/-! ## Control -/

/-- 43_control.md R120: `BRK` halts with `Break`, pushes nothing, writes no flag, and leaves `PC` on
its own cell. -/
def Obligations.BrkHaltsWithBreak : Prop :=
  ∀ s : State,
    (encode .brk = [0] ∧ decode [0] = .instr .brk []) ∧
    exec .brk s = .next { s with halted := true, haltReason := some .brk } ∧
    (s.halted = false → progRead s s.pc = .ok 0 →
      step s = .next { s with halted := true, haltReason := some .brk } ∧ stepBool s = false)

/-- `BNE k` adds the signed displacement to the index of the next instruction when `Z` is clear, and
falls through when it is set (43_control.md section 2). The case of a missing operand cell is
`MissingOperandCellHalts`, by D5. -/
def Obligations.BneBranchesWhenZeroFlagIsClear : Prop :=
  ∀ (s : State) (k : Int),
    exec (.bne (some k)) s =
      .next { s with pc := if flagTest s.p .z then s.pc + 1 else s.pc + 1 + k } ∧
    (s.halted = false → progRead s s.pc = .ok 7 → progRead s (s.pc + 1) = .ok k →
      step s = .next { s with pc := if flagTest s.p .z then s.pc + 2 else s.pc + 2 + k })

/-- 43_control.md R122: whatever its operand and whether or not it halts, `BNE` leaves `X`, `Y`,
`A`, `SP`, `RAM` and every flag as they were. -/
def Obligations.BneChangesOnlyPc : Prop :=
  ∀ (s t : State) (i : Instr) (rest : List Int), s.halted = false → fetch s = .instr i rest →
    i.mnemonic = "BNE" → step s = .next t →
    t.x = s.x ∧ t.y = s.y ∧ t.a = s.a ∧ t.sp = s.sp ∧ t.ram = s.ram ∧ t.p = s.p ∧
    (t.halted = false → t = { s with pc := t.pc })

/-- The operand that reaches the cell `target` from a `BNE` at `p` is `target - p - 2`
(30_encoding.md section 5, 70_reset_and_hazards.md section 3). -/
def Obligations.BneOperandReachesItsTarget : Prop :=
  ∀ (s : State) (target : Int), s.halted = false → flagTest s.p .z = false →
    progRead s s.pc = .ok 7 → progRead s (s.pc + 1) = .ok (target - s.pc - 2) →
    step s = .next { s with pc := target }

/-- A `BNE -2` with `Z` clear branches to itself for ever (40_engine.md section 7). That no step limit
ends the run is the spec's decision D12 (log 19), followed by the model. -/
def Obligations.BranchToItselfNeverHalts : Prop :=
  ∀ s : State, s.halted = false → flagTest s.p .z = false → progRead s s.pc = .ok 7 →
    progRead s (s.pc + 1) = .ok (-2) → (∀ k, Reaches k s s) ∧ Hangs s

/-- `JSR t` pushes the index of its operand cell at `SP`, decrements `SP`, goes to `t`, and changes
no other cell and nothing else (43_control.md section 3). -/
def Obligations.JsrPushesAndTransfers : Prop :=
  ∀ (s : State) (k : Int), 0 ≤ s.sp → s.sp < (s.cfg.ramLen : Int) →
    ∃ t, exec (.jsr (some k)) s = .next t ∧
      t = { s with pc := k - 1, sp := s.sp - 1, ram := t.ram } ∧
      memRead t s.sp = .ok (normCell s.cfg.cellW (s.pc + 1)) ∧
      (∀ b, storeAddress (.jsr (some k)) s ≠ some b → memRead t b = memRead s b) ∧
      (s.halted = false → progRead s s.pc = .ok 11 → progRead s (s.pc + 1) = .ok k →
        step s = .next { t with pc := k })

/-- The two faults of `JSR`: the push outside `RAM` first, whether or not the operand cell exists;
then a missing operand cell, with the push and the decrement done (43_control.md section 3). The
order is the spec's decision D4 (log 10) and what stays is D3 (log 9). -/
def Obligations.JsrFaultsPushBeforeOperand : Prop :=
  ∀ s : State, s.halted = false → progRead s s.pc = .ok 11 →
    (s.sp < 0 ∨ (s.cfg.ramLen : Int) ≤ s.sp →
      step s = .next { s with pc := s.pc + 1, halted := true,
                              haltReason := some (.addressOutOfBounds s.sp) }) ∧
    (0 ≤ s.sp → s.sp < (s.cfg.ramLen : Int) → s.pc + 1 = (s.cfg.program.length : Int) →
      ∃ t, step s = .next t ∧
        t = { s with pc := s.pc + 1, sp := s.sp - 1, ram := t.ram, halted := true,
                     haltReason := some (.programOutOfBounds (s.pc + 1)) } ∧
        memRead t s.sp = .ok (normCell s.cfg.cellW (s.pc + 1)) ∧
        ∀ b, b ≠ s.sp → memRead t b = memRead s b)

/-- `RTS` increments `SP` and transfers to the cell after the index it pops at
`SP + RTS_READ_OFFSET`, changing nothing else; outside `RAM` it halts with that address, `SP`
incremented and `PC` on its own cell (43_control.md section 3). Offset 0 is the spec's decision D2
(log 13); that `SP` stays incremented is D3 (log 9). -/
def Obligations.RtsPopsAndTransfers : Prop :=
  ∀ (s : State) (q r : Int), q = s.sp + 1 + s.cfg.rtsReadOffset.val →
    (memRead s q = .ok r →
      exec .rts s = .next { s with sp := s.sp + 1, pc := r } ∧
      (s.halted = false → progRead s s.pc = .ok 12 →
        step s = .next { s with sp := s.sp + 1, pc := r + 1 })) ∧
    (q < 0 ∨ (s.cfg.ramLen : Int) ≤ q → s.halted = false → progRead s s.pc = .ok 12 →
      step s = .next { s with sp := s.sp + 1, halted := true,
                              haltReason := some (.addressOutOfBounds q) })

/-- 43_control.md R128 and 30_encoding.md R66: every opcode cell other than 0 to 12 halts with
`InvalidOpcode(code)`, and nothing else changes. -/
def Obligations.UnmappedOpcodeHalts : Prop :=
  ∀ (s : State) (op : Int),
    exec (.invalid op) s = .next { s with halted := true, haltReason := some (.invalidOpcode op) } ∧
    (op < 0 ∨ 12 < op → s.halted = false → progRead s s.pc = .ok op →
      step s = .next { s with halted := true, haltReason := some (.invalidOpcode op) })

/-- The round trip of a call, at any nesting (43_control.md section 3): after a `JSR` at `p`, an
`RTS` that runs with `SP` where the `JSR` left it and the saved cell as the `JSR` left it sets `SP`
back and resumes at `p + 2`. For offset 0 and unbounded cells (D2, D1; logs 13, 14). -/
def Obligations.ReturnResumesAfterTheCall : Prop :=
  ∀ (s t u : State) (k : Nat) (target : Int),
    s.cfg.cellW = .unbounded → s.cfg.rtsReadOffset = 0 → s.halted = false →
    progRead s s.pc = .ok 11 → progRead s (s.pc + 1) = .ok target →
    0 ≤ s.sp → s.sp < (s.cfg.ramLen : Int) → step s = .next t →
    Reaches k t u → u.halted = false → u.sp = t.sp → memRead u s.sp = memRead t s.sp →
    progRead u u.pc = .ok 12 →
    step u = .next { u with sp := s.sp, pc := s.pc + 2 }

/-- While `SP` stays below the address of a saved return address, nothing but a `STA` or a `STAX` to
that very address changes it: nested calls keep the outer return addresses (43_control.md section 3,
20_memory.md section 5). -/
def Obligations.NestedCallsKeepOuterReturnAddresses : Prop :=
  ∀ (k : Nat) (s t : State) (adr : Int), Reaches k s t →
    (∀ j u, j < k → Reaches j s u →
      u.sp < adr ∧ ∀ i rest, fetch u = .instr i rest →
        i ≠ .sta (some adr) ∧ ¬ (i = .stax ∧ u.x = adr)) →
    memRead t adr = memRead s adr

/-! ## Memory and program store -/

/-- 20_memory.md R43: `ProgRead` gives the cell inside the program, and raises with the index
outside it. -/
def Obligations.ProgReadIsBoundsChecked : Prop :=
  ∀ (s : State) (i : Int),
    (0 ≤ i → i < (s.cfg.program.length : Int) →
      ∃ v, s.cfg.program[i.toNat]? = some v ∧ progRead s i = .ok v) ∧
    (i < 0 ∨ (s.cfg.program.length : Int) ≤ i → progRead s i = .error (.programOutOfBounds i))

/-- 20_memory.md R44 and R45: inside `RAM` a write succeeds, is read back verbatim, and changes no
other cell and no other state; outside it both raise with the address. A cell that no step since
reset has stored to reads 0. -/
def Obligations.RamReadsWhatWasWritten : Prop :=
  (∀ (s : State) (a v : Int),
    (0 ≤ a → a < (s.cfg.ramLen : Int) →
      (∃ w, memRead s a = .ok w) ∧
      ∃ t, memWrite s a v = .ok t ∧ t = { s with ram := t.ram } ∧ memRead t a = .ok v ∧
        ∀ b, b ≠ a → memRead t b = memRead s b) ∧
    (a < 0 ∨ (s.cfg.ramLen : Int) ≤ a →
      memRead s a = .error (.addressOutOfBounds a) ∧
      memWrite s a v = .error (.addressOutOfBounds a))) ∧
  ∀ (c : Config) (k : Nat) (t : State) (a : Int), 0 ≤ a → a < (c.ramLen : Int) →
    Reaches k (State.ofConfig c) t →
    (∀ j u i rest, j < k → Reaches j (State.ofConfig c) u → fetch u = .instr i rest →
      storeAddress i u ≠ some a) →
    memRead t a = .ok 0

/-- Whatever the instruction and however its handler ends, the only cell of `RAM` that can change is
the one at its store address, which only `STA`, `STAX` and `JSR` have (20_memory.md sections 1
and 3). -/
def Obligations.OnlyTheStoreAddressChanges : Prop :=
  ∀ (i : Instr) (s t : State), exec i s = .next t →
    ∀ b, storeAddress i s ≠ some b → memRead t b = memRead s b

/-- 20_memory.md R52: no store reaches the fetch. Along every run the program store gives the cells
of its construction, and what is fetched does not depend on `RAM`. -/
def Obligations.FetchIsNeverAffectedByAStore : Prop :=
  (∀ (k : Nat) (s t : State), Reaches k s t →
    t.cfg = s.cfg ∧ ∀ i, progRead t i = progRead s i) ∧
  ∀ (s : State) (m : Memory), fetch { s with ram := m } = fetch s

/-! ## Registers and flags -/

/-- Which instructions write which state, over all instructions: the "written by" column of the
table in 10_state.md section 1. The latch is written by `raise`, which sets it and never clears it;
`INX` and `DEY` are the instructions that have none. -/
def Obligations.OnlyTheListedInstructionsWriteEachRegister : Prop :=
  ∀ (i : Instr) (s t : State), exec i s = .next t →
    (t.a ≠ s.a → i.mnemonic ∈ ["LDA", "ADC"]) ∧
    (t.x ≠ s.x → i.mnemonic ∈ ["LDX", "INX"]) ∧
    (t.y ≠ s.y → i.mnemonic ∈ ["DEY", "LDY"]) ∧
    (t.p ≠ s.p → i.mnemonic = "CMY") ∧
    (t.sp ≠ s.sp → i.mnemonic ∈ ["JSR", "RTS"]) ∧
    (t.ram ≠ s.ram → i.mnemonic ∈ ["STA", "STAX", "JSR"]) ∧
    (t.pc ≠ s.pc → i.operand?.isSome = true ∨ i = .rts) ∧
    (t.halted ≠ s.halted ∨ t.haltReason ≠ s.haltReason →
      i ≠ .inx ∧ i ≠ .dey ∧ t.halted = true ∧ t.haltReason ≠ none) ∧
    t.cfg = s.cfg

/-- 10_state.md R16: `CMY` writes `Z` and `BNE` reads it; no other instruction writes a flag, and no
other flag is written; every instruction but `BNE` does the same whatever the flags are, and `BNE`
whatever the flags other than `Z` are. -/
def Obligations.OnlyCmyWritesAndOnlyBneReadsAFlag : Prop :=
  (∀ (s : State) (v : Int), ∃ t, exec (.cmy (some v)) s = .next t ∧
    (flagTest t.p .z = true ↔ v = s.y)) ∧
  (∀ (s : State) (k : Int), ∃ t, exec (.bne (some k)) s = .next t ∧
    t.pc = if flagTest s.p .z then s.pc + 1 else s.pc + 1 + k) ∧
  ∀ (i : Instr) (s t : State), exec i s = .next t →
    (∀ f, flagTest t.p f ≠ flagTest s.p f → f = .z ∧ ∃ v, i = .cmy (some v)) ∧
    ∀ q : BitVec 8, ((∃ k, i = .bne k) → flagTest q .z = flagTest s.p .z) →
      ∃ u, exec i { s with p := q } = .next u ∧ { u with p := t.p } = t ∧
        ∀ f, f ≠ .z → flagTest u.p f = flagTest q f

/-- The flag operations (10_state.md section 3): `set` and `clear` act on the one named bit, `test`
reads it, and `raw` is the byte with the flags in the order `C Z I D s b V N` from bit 0 up, which is
the spec's decision D6 (log 8). -/
def Obligations.FlagOperationsActOnOneBit : Prop :=
  ∀ (p : BitVec 8) (f g : Flag),
    flagTest (flagSet p f) g = (if g = f then true else flagTest p g) ∧
    flagTest (flagClear p f) g = (if g = f then false else flagTest p g) ∧
    (flagRaw p).toNat =
      (flagTest p .n).toNat * 128 + (flagTest p .v).toNat * 64 + (flagTest p .b).toNat * 32 +
      (flagTest p .s).toNat * 16 + (flagTest p .d).toNat * 8 + (flagTest p .i).toNat * 4 +
      (flagTest p .z).toNat * 2 + (flagTest p .c).toNat

/-! ## Halts -/

/-- Which instruction can raise which halt reason (60_exceptions.md section 1). -/
def Obligations.EachInstructionRaisesOnlyItsReasons : Prop :=
  ∀ (i : Instr) (s t : State), s.halted = false → exec i s = .next t → t.halted = true →
    match i with
    | .brk => t.haltReason = some .brk
    | .inx | .dey => False
    | .lda _ | .ldx _ | .adc _ | .cmy _ | .bne _ =>
      t.haltReason = some (.programOutOfBounds (s.pc + 1))
    | .sta o | .ldy o =>
      (o = none ∧ t.haltReason = some (.programOutOfBounds (s.pc + 1))) ∨
      ∃ a, o = some a ∧ (a < 0 ∨ (s.cfg.ramLen : Int) ≤ a) ∧
        t.haltReason = some (.addressOutOfBounds a)
    | .stax => t.haltReason = some (.addressOutOfBounds s.x)
    | .jsr _ =>
      t.haltReason = some (.addressOutOfBounds s.sp) ∨
      t.haltReason = some (.programOutOfBounds (s.pc + 1))
    | .rts => t.haltReason = some (.addressOutOfBounds (s.sp + 1 + s.cfg.rtsReadOffset.val))
    | .invalid op => t.haltReason = some (.invalidOpcode op)

/-- What a step that halts leaves (60_exceptions.md section 2): the registers, the flags and the
parameters always as they were, and of the rest exactly what the table lists for the instruction.
That the earlier effects stay is the spec's decision D3 (log 9), and that `JSR` has pushed before its
operand read fails is D4 (log 10). -/
def Obligations.HaltKeepsOnlyTheEarlierEffects : Prop :=
  ∀ (s t : State), s.halted = false → step s = .next t → t.halted = true →
    (t.a = s.a ∧ t.x = s.x ∧ t.y = s.y ∧ t.p = s.p ∧ t.cfg = s.cfg ∧ t.haltReason ≠ none) ∧
    (fetch s = .noOpcodeCell → t.pc = s.pc ∧ t.sp = s.sp ∧ t.ram = s.ram) ∧
    ∀ i rest, fetch s = .instr i rest →
      match i with
      | .brk | .stax | .inx | .dey | .invalid _ => t.pc = s.pc ∧ t.sp = s.sp ∧ t.ram = s.ram
      | .lda _ | .adc _ | .sta _ | .ldx _ | .cmy _ | .bne _ | .ldy _ =>
        t.pc = s.pc + 1 ∧ t.sp = s.sp ∧ t.ram = s.ram
      | .jsr _ =>
        t.pc = s.pc + 1 ∧
        ((t.haltReason = some (.addressOutOfBounds s.sp) ∧ t.sp = s.sp ∧ t.ram = s.ram) ∨
         (t.haltReason = some (.programOutOfBounds (s.pc + 1)) ∧ t.sp = s.sp - 1 ∧
          memRead t s.sp = .ok (normCell s.cfg.cellW (s.pc + 1)) ∧
          ∀ b, b ≠ s.sp → memRead t b = memRead s b))
      | .rts => t.pc = s.pc ∧ t.sp = s.sp + 1 ∧ t.ram = s.ram

/-- Every run of a machine with a consistent latch has exactly one of the three outcomes: it
completes with `Break`, it goes wrong with a fault, or it hangs (60_exceptions.md section 4). For
`Break` that nothing follows rests on the spec's decision D7 (log 12). -/
def Obligations.EveryRunHasExactlyOneOutcome : Prop :=
  ∀ s : State, LatchConsistent s →
    (Completes s ∨ GoesWrong s ∨ Hangs s) ∧
    ¬ (Completes s ∧ GoesWrong s) ∧ ¬ (Completes s ∧ Hangs s) ∧ ¬ (GoesWrong s ∧ Hangs s)

/-! ## Invariants -/

/-- Every step keeps the canonical form of `RAM` (log 2), with no address outside `[0, RAM_LEN)`. -/
def Obligations.StepKeepsRamCanonical : Prop :=
  ∀ s t : State, RamCanonical s → step s = .next t → RamCanonical t

/-- Every step keeps `-1 <= SP <= RAM_LEN`, and `SP < RAM_LEN` while the machine runs
(10_state.md section 5), for both values of `RTS_READ_OFFSET`. -/
def Obligations.StepKeepsStackPointerWithin : Prop :=
  ∀ s t : State, SpWithin s → step s = .next t → SpWithin t

/-- Every step keeps the halt latch consistent, and none sets it back to false (10_state.md
section 7; for `Break` by the spec's decision D7, log 12). -/
def Obligations.StepKeepsHaltLatchConsistent : Prop :=
  ∀ s t : State, LatchConsistent s → step s = .next t →
    LatchConsistent t ∧ (s.halted = true → t.halted = true ∧ t.haltReason = s.haltReason)

/-- Every step keeps the seven flags other than `Z` at 0 (10_state.md section 3), so that `raw()` is
0x00 or 0x02 (positions by D6, log 8). -/
def Obligations.StepKeepsOtherFlagsClear : Prop :=
  ∀ s t : State, OnlyZeroFlag s → step s = .next t →
    OnlyZeroFlag t ∧ (flagRaw t.p = 0#8 ∨ flagRaw t.p = 2#8)

/-- Every step keeps every register, `RAM` cell and program cell inside the range of a finite
`CELL_W` of at least 2 bits (42_arith_compare.md section 3, the spec's decision D1, log 14). -/
def Obligations.StepKeepsValuesInTheCellWidth : Prop :=
  ∀ s t : State, legalWidth s.cfg.cellW = true → ValuesFit s → step s = .next t → ValuesFit t

/-- Reset meets every invariant above, for every admitted configuration, `State.reset`'s own (log 4)
among them. -/
def Obligations.ResetMeetsTheInvariants : Prop :=
  (∀ c : Config, configWf c = true →
    RamCanonical (State.ofConfig c) ∧ SpWithin (State.ofConfig c) ∧
    LatchConsistent (State.ofConfig c) ∧ OnlyZeroFlag (State.ofConfig c) ∧
    ValuesFit (State.ofConfig c)) ∧
  configWf Config.reference = true ∧ State.reset = State.ofConfig Config.reference

/-! ## Construction and the host -/

/-- 10_state.md R30: construction from any program and any `ram_size >= 1` gives every register,
flag and cell 0, `PC = 0`, `SP = RAM_LEN - 1`, not halted, no reason, and the program as supplied. -/
def Obligations.ConstructionGivesTheResetState : Prop :=
  ∀ (program : List Int) (size : Int), 1 ≤ size →
    ∃ s, construct program size = .next s ∧
      s.a = 0 ∧ s.x = 0 ∧ s.y = 0 ∧ (∀ f, flagTest s.p f = false) ∧ flagRaw s.p = 0#8 ∧
      s.pc = 0 ∧ s.sp = size - 1 ∧ (∀ a, 0 ≤ a → a < size → memRead s a = .ok 0) ∧
      s.halted = false ∧ s.haltReason = none ∧
      s.cfg.program = program ∧ (s.cfg.ramLen : Int) = size

/-- Construction refuses exactly what the spec leaves outside the model: a `ram_size` below 1
(70_reset_and_hazards.md section 1, the spec's decision D9, log 15), and parameters that 00_scope.md
section 4 rules out (logs 14, 20). -/
def Obligations.ConstructionRefusesExactlyWhatIsOutside : Prop :=
  ∀ (program : List Int) (size : Int) (w : CellWidth) (o : Fin 2),
    (∃ r, construct program size w o = .refused r) ↔
      (size < 1 ∨ legalWidth w = false ∨ ∃ v ∈ program, fits w v = false)

/-- `Run()` (40_engine.md section 7): it continues from the state that steps have led to; it ends in
the first halted state with that state's reason, and gives a reason only there; on a halted machine it
gives the recorded reason at once and changes nothing (the spec's decision D7, log 12). The bound on
the steps is the model's (D12, log 19). -/
def Obligations.RunContinuesAfterSteps : Prop :=
  (∀ (k n : Nat) (s t : State), Reaches k s t → t.halted = false →
    run k s = (none, t) ∧ run (k + n) s = run n t) ∧
  (∀ (m n : Nat) (s u : State), 1 ≤ m → m ≤ n → Reaches m s u → u.halted = true →
    (∀ j v, j < m → Reaches j s v → v.halted = false) → run n s = (u.haltReason, u)) ∧
  (∀ (n : Nat) (s u : State) (r : HaltReason), s.halted = false → run n s = (some r, u) →
    u.halted = true ∧ u.haltReason = some r ∧
    ∃ m, 1 ≤ m ∧ m ≤ n ∧ Reaches m s u ∧ ∀ j v, j < m → Reaches j s v → v.halted = false) ∧
  ∀ (n : Nat) (s : State), s.halted = true → run (n + 1) s = (s.haltReason, s)

/-- The memory accessor of the host gives all `RAM_LEN` cells, each as `MemRead` gives it
(10_state.md section 9). -/
def Obligations.SnapshotShowsEveryRamCell : Prop :=
  ∀ s : State, s.snapshot.ram.length = s.cfg.ramLen ∧
    ∀ (n : Nat) (v : Int), s.snapshot.ram[n]? = some v ↔
      (n < s.cfg.ramLen ∧ memRead s (n : Int) = .ok v)

/-! ## The opcode table at a finite width -/

/-- The rows of spec/opcode_table.json at a finite `CELL_W` (30_encoding.md section 6, by the spec's
decisions D1 and D16, logs 14 and 23) against the decoder, for every cell of the width. Exactly the
decoded instruction's row matches, but for a negative cell of a width of 4 bits or fewer: the decoder
takes it as invalid, while the table matches its pattern. That is the model's choice between two rules
(log 24, a DESIGN CHOICE). -/
def Obligations.FiniteWidthRowsMatchTheDecodedInstruction : Prop :=
  ∀ (w : Nat) (op : Int) (cells rest : List Int) (i : Instr), 2 ≤ w → fits (.bits w) op = true →
    decode (op :: cells) = .instr i rest →
    (5 ≤ w ∨ 0 ≤ op →
      ∀ r ∈ opcodeTable, (r.matchesCell (.bits w) op = true ↔ r.mnemonic = i.mnemonic)) ∧
    (w ≤ 4 → op < 0 → i = .invalid op ∧
      ∀ r ∈ opcodeTable, (r.matchesCell (.bits w) op = true ↔
        r.code = some (op + 2 ^ w) ∨ (r.code = none ∧ 12 < op + 2 ^ w)))
end

