-- ==== Sys2Proof/Laws/Decode.lean ====
section
/-! SUPPORT. What the decoder can answer, said once, and its small lemmas. -/

namespace Sys2Proof

@[simp] theorem decode_nil : decode [] = .noOpcodeCell := rfl
@[simp] theorem decode_0 (rest : List Int) : decode (0 :: rest) = .instr .brk rest := rfl
@[simp] theorem decode_1 (rest : List Int) : decode (1 :: rest) = withOperand .lda rest := rfl
@[simp] theorem decode_2 (rest : List Int) : decode (2 :: rest) = withOperand .adc rest := rfl
@[simp] theorem decode_3 (rest : List Int) : decode (3 :: rest) = withOperand .sta rest := rfl
@[simp] theorem decode_4 (rest : List Int) : decode (4 :: rest) = withOperand .ldx rest := rfl
@[simp] theorem decode_5 (rest : List Int) : decode (5 :: rest) = .instr .inx rest := rfl
@[simp] theorem decode_6 (rest : List Int) : decode (6 :: rest) = withOperand .cmy rest := rfl
@[simp] theorem decode_7 (rest : List Int) : decode (7 :: rest) = withOperand .bne rest := rfl
@[simp] theorem decode_8 (rest : List Int) : decode (8 :: rest) = .instr .stax rest := rfl
@[simp] theorem decode_9 (rest : List Int) : decode (9 :: rest) = .instr .dey rest := rfl
@[simp] theorem decode_10 (rest : List Int) : decode (10 :: rest) = withOperand .ldy rest := rfl
@[simp] theorem decode_11 (rest : List Int) : decode (11 :: rest) = withOperand .jsr rest := rfl
@[simp] theorem decode_12 (rest : List Int) : decode (12 :: rest) = .instr .rts rest := rfl

/-- An opcode cell outside 0 to 12 is the invalid opcode (30_encoding.md R66). -/
theorem decode_unmapped {op : Int} (h : op < 0 ∨ 12 < op) (rest : List Int) :
    decode (op :: rest) = .instr (.invalid op) rest := by
  have hne : ∀ n : Int, 0 ≤ n → n ≤ 12 → op ≠ n := fun n h₀ h₁ e => by omega
  simp [decode, hne]

@[simp] theorem withOperand_nil (mk : Operand → Instr) :
    withOperand mk [] = .instr (mk none) [] := rfl

@[simp] theorem withOperand_cons (mk : Operand → Instr) (v : Int) (rest : List Int) :
    withOperand mk (v :: rest) = .instr (mk (some v)) rest := rfl

/-- An opcode cell is one of the thirteen codes or unmapped: the case split for every proof about
`decode`. -/
theorem opcode_cases (op : Int) :
    op = 0 ∨ op = 1 ∨ op = 2 ∨ op = 3 ∨ op = 4 ∨ op = 5 ∨ op = 6 ∨ op = 7 ∨ op = 8 ∨ op = 9 ∨
      op = 10 ∨ op = 11 ∨ op = 12 ∨ (op < 0 ∨ 12 < op) := by omega

end Sys2Proof
end

