-- ==== Sys2Proof/Laws/Flags.lean ====
section
/-! SUPPORT. The laws of the flag operations (10_state.md R18). -/

namespace Sys2Proof.Machine

theorem flagBit_injective {f g : Flag} (h : flagBit f = flagBit g) : f = g := by
  cases f <;> cases g <;> first | rfl | exact absurd h (by decide)

theorem flagMask_test (f g : Flag) : (flagMask f).getLsbD (flagBit g) = decide (g = f) := by
  cases f <;> cases g <;> rfl

theorem flagTest_flagSet (p : BitVec 8) (f g : Flag) :
    flagTest (flagSet p f) g = (flagTest p g || decide (g = f)) := by
  simp [flagTest, flagSet, flagMask_test]

theorem flagTest_flagClear (p : BitVec 8) (f g : Flag) :
    flagTest (flagClear p f) g = (flagTest p g && !decide (g = f)) := by
  have hg : flagBit g < 8 := by cases g <;> decide
  rw [flagTest, flagClear, BitVec.getLsbD_and, BitVec.getLsbD_not, flagMask_test]
  simp [flagTest, hg]

/-- What a compare leaves in each flag. -/
theorem flagTest_flagsAfterCompare (p : BitVec 8) (e : Bool) (g : Flag) :
    flagTest (flagsAfterCompare p e) g = if g = .z then e else flagTest p g := by
  cases e <;> by_cases h : g = .z <;>
    simp [flagsAfterCompare, flagTest_flagSet, flagTest_flagClear, h]

end Sys2Proof.Machine
end

