-- ==== Sys2Proof/Laws/Memory.lean ====
section
/-! SUPPORT. The laws of `RAM` as data: read after write, and the canonical form. -/

namespace Sys2Proof.Machine

@[simp] theorem Memory.read_nil (a : Nat) : Memory.read [] a = Memory.unlisted := rfl

theorem Memory.read_erase_same (m : Memory) (a : Nat) : (m.erase a).read a = Memory.unlisted := by
  induction m with
  | nil => rfl
  | cons c rest ih =>
    obtain ⟨b, v⟩ := c
    by_cases h : b = a <;> simp_all [Memory.erase, Memory.read]

theorem Memory.read_erase_other (m : Memory) {a b : Nat} (h : b ≠ a) :
    (m.erase a).read b = m.read b := by
  induction m with
  | nil => rfl
  | cons c rest ih =>
    obtain ⟨d, v⟩ := c
    by_cases h₁ : d = a
    · subst h₁; simpa [Memory.erase, Memory.read, Ne.symm h] using ih
    · by_cases h₂ : d = b <;> simp_all [Memory.erase, Memory.read]

/-- Inserting at an address that is not listed: that address reads the value. -/
theorem Memory.read_insert_same (m : Memory) (a : Nat) (v : Int) (h : ∀ c ∈ m, c.1 ≠ a) :
    (m.insert a v).read a = v := by
  induction m with
  | nil => simp [Memory.insert, Memory.read]
  | cons c rest ih =>
    obtain ⟨b, w⟩ := c
    have hb : b ≠ a := h (b, w) (by simp)
    by_cases h₁ : a < b
    · simp [Memory.insert, Memory.read, h₁]
    · simpa [Memory.insert, Memory.read, h₁, hb] using ih fun c hc => h c (by simp [hc])

theorem Memory.read_insert_other (m : Memory) {a b : Nat} (v : Int) (h : b ≠ a) :
    (m.insert a v).read b = m.read b := by
  induction m with
  | nil => simp [Memory.insert, Memory.read, Ne.symm h]
  | cons c rest ih =>
    obtain ⟨d, w⟩ := c
    by_cases h₁ : a < d
    · simp [Memory.insert, Memory.read, h₁, Ne.symm h]
    · simp only [Memory.insert, h₁, if_false, Memory.read, ih]

theorem Memory.erase_not_listed (m : Memory) (a : Nat) : ∀ c ∈ m.erase a, c.1 ≠ a := by
  simp [Memory.erase]

/-- Read after write, the same address. -/
@[simp] theorem Memory.read_write_same (m : Memory) (a : Nat) (v : Int) :
    (m.write a v).read a = v := by
  unfold Memory.write
  split
  · next h => rw [h, Memory.read_erase_same]
  · exact Memory.read_insert_same _ a v (Memory.erase_not_listed m a)

/-- Read after write, another address. -/
theorem Memory.read_write_other (m : Memory) {a b : Nat} (v : Int) (h : b ≠ a) :
    (m.write a v).read b = m.read b := by
  unfold Memory.write
  split
  · exact Memory.read_erase_other m h
  · rw [Memory.read_insert_other _ v h, Memory.read_erase_other m h]

theorem Memory.wf_nil (n : Nat) : Memory.wf n [] := by simp [Memory.wf]

theorem Memory.wf_erase {n : Nat} {m : Memory} (h : m.wf n) (a : Nat) : (m.erase a).wf n :=
  ⟨h.1.filter _, fun c hc => h.2 c (List.mem_of_mem_filter hc)⟩

theorem Memory.mem_insert {m : Memory} {a : Nat} {v : Int} {c : Nat × Int}
    (hc : c ∈ m.insert a v) : c = (a, v) ∨ c ∈ m := by
  induction m with
  | nil => simpa [Memory.insert] using hc
  | cons d rest ih =>
    obtain ⟨b, w⟩ := d
    by_cases h : a < b
    · simpa [Memory.insert, h] using hc
    · simp only [Memory.insert, h, if_false, List.mem_cons] at hc
      rcases hc with hc | hc
      · exact .inr (by simp [hc])
      · exact (ih hc).imp_right (List.mem_cons_of_mem _)

theorem Memory.wf_insert {n : Nat} {m : Memory} (h : m.wf n) {a : Nat} {v : Int}
    (hm : ∀ c ∈ m, c.1 ≠ a) (ha : a < n) (hv : v ≠ Memory.unlisted) : (m.insert a v).wf n := by
  refine ⟨?_, fun c hc => ?_⟩
  · obtain ⟨hp, -⟩ := h
    induction m with
    | nil => simp [Memory.insert]
    | cons d rest ih =>
      obtain ⟨b, w⟩ := d
      have hb : b ≠ a := hm (b, w) (by simp)
      rw [List.pairwise_cons] at hp
      by_cases h₁ : a < b
      · simp only [Memory.insert, h₁, if_true, List.pairwise_cons, List.mem_cons]
        refine ⟨?_, hp.1, hp.2⟩
        rintro c (rfl | hc)
        · exact h₁
        · exact h₁.trans (hp.1 c hc)
      · simp only [Memory.insert, h₁, if_false, List.pairwise_cons]
        refine ⟨fun c hc => ?_, ih (fun c hc => hm c (by simp [hc])) hp.2⟩
        rcases Memory.mem_insert hc with rfl | hc
        · exact Nat.lt_of_le_of_ne (Nat.le_of_not_lt h₁) hb
        · exact hp.1 c hc
  · rcases Memory.mem_insert hc with rfl | hc
    · exact ⟨hv, ha⟩
    · exact h.2 c hc

/-- A write inside `RAM` keeps the canonical form. -/
theorem Memory.wf_write {n : Nat} {m : Memory} (h : m.wf n) {a : Nat} (ha : a < n) (v : Int) :
    (m.write a v).wf n := by
  unfold Memory.write
  split
  · exact Memory.wf_erase h a
  · next hv => exact Memory.wf_insert (Memory.wf_erase h a) (Memory.erase_not_listed m a) ha hv

end Sys2Proof.Machine
end

