-- ==== Sys2Proof/Laws/State.lean ====
section
/-! SUPPORT. One lemma per field per update of `State`, true by `rfl`, so that no proof unfolds a record
update. -/

namespace Sys2Proof.Machine

@[simp] theorem State.setA_a (s : State) (v : Int) : (s.setA v).a = v := rfl
@[simp] theorem State.setA_x (s : State) (v : Int) : (s.setA v).x = s.x := rfl
@[simp] theorem State.setA_y (s : State) (v : Int) : (s.setA v).y = s.y := rfl
@[simp] theorem State.setA_p (s : State) (v : Int) : (s.setA v).p = s.p := rfl
@[simp] theorem State.setA_pc (s : State) (v : Int) : (s.setA v).pc = s.pc := rfl
@[simp] theorem State.setA_sp (s : State) (v : Int) : (s.setA v).sp = s.sp := rfl
@[simp] theorem State.setA_ram (s : State) (v : Int) : (s.setA v).ram = s.ram := rfl
@[simp] theorem State.setA_halted (s : State) (v : Int) : (s.setA v).halted = s.halted := rfl
@[simp] theorem State.setA_haltReason (s : State) (v : Int) : (s.setA v).haltReason = s.haltReason := rfl
@[simp] theorem State.setA_cfg (s : State) (v : Int) : (s.setA v).cfg = s.cfg := rfl

@[simp] theorem State.setX_a (s : State) (v : Int) : (s.setX v).a = s.a := rfl
@[simp] theorem State.setX_x (s : State) (v : Int) : (s.setX v).x = v := rfl
@[simp] theorem State.setX_y (s : State) (v : Int) : (s.setX v).y = s.y := rfl
@[simp] theorem State.setX_p (s : State) (v : Int) : (s.setX v).p = s.p := rfl
@[simp] theorem State.setX_pc (s : State) (v : Int) : (s.setX v).pc = s.pc := rfl
@[simp] theorem State.setX_sp (s : State) (v : Int) : (s.setX v).sp = s.sp := rfl
@[simp] theorem State.setX_ram (s : State) (v : Int) : (s.setX v).ram = s.ram := rfl
@[simp] theorem State.setX_halted (s : State) (v : Int) : (s.setX v).halted = s.halted := rfl
@[simp] theorem State.setX_haltReason (s : State) (v : Int) : (s.setX v).haltReason = s.haltReason := rfl
@[simp] theorem State.setX_cfg (s : State) (v : Int) : (s.setX v).cfg = s.cfg := rfl

@[simp] theorem State.setY_a (s : State) (v : Int) : (s.setY v).a = s.a := rfl
@[simp] theorem State.setY_x (s : State) (v : Int) : (s.setY v).x = s.x := rfl
@[simp] theorem State.setY_y (s : State) (v : Int) : (s.setY v).y = v := rfl
@[simp] theorem State.setY_p (s : State) (v : Int) : (s.setY v).p = s.p := rfl
@[simp] theorem State.setY_pc (s : State) (v : Int) : (s.setY v).pc = s.pc := rfl
@[simp] theorem State.setY_sp (s : State) (v : Int) : (s.setY v).sp = s.sp := rfl
@[simp] theorem State.setY_ram (s : State) (v : Int) : (s.setY v).ram = s.ram := rfl
@[simp] theorem State.setY_halted (s : State) (v : Int) : (s.setY v).halted = s.halted := rfl
@[simp] theorem State.setY_haltReason (s : State) (v : Int) : (s.setY v).haltReason = s.haltReason := rfl
@[simp] theorem State.setY_cfg (s : State) (v : Int) : (s.setY v).cfg = s.cfg := rfl

@[simp] theorem State.setP_a (s : State) (v : BitVec 8) : (s.setP v).a = s.a := rfl
@[simp] theorem State.setP_x (s : State) (v : BitVec 8) : (s.setP v).x = s.x := rfl
@[simp] theorem State.setP_y (s : State) (v : BitVec 8) : (s.setP v).y = s.y := rfl
@[simp] theorem State.setP_p (s : State) (v : BitVec 8) : (s.setP v).p = v := rfl
@[simp] theorem State.setP_pc (s : State) (v : BitVec 8) : (s.setP v).pc = s.pc := rfl
@[simp] theorem State.setP_sp (s : State) (v : BitVec 8) : (s.setP v).sp = s.sp := rfl
@[simp] theorem State.setP_ram (s : State) (v : BitVec 8) : (s.setP v).ram = s.ram := rfl
@[simp] theorem State.setP_halted (s : State) (v : BitVec 8) : (s.setP v).halted = s.halted := rfl
@[simp] theorem State.setP_haltReason (s : State) (v : BitVec 8) : (s.setP v).haltReason = s.haltReason := rfl
@[simp] theorem State.setP_cfg (s : State) (v : BitVec 8) : (s.setP v).cfg = s.cfg := rfl

@[simp] theorem State.setPc_a (s : State) (v : Int) : (s.setPc v).a = s.a := rfl
@[simp] theorem State.setPc_x (s : State) (v : Int) : (s.setPc v).x = s.x := rfl
@[simp] theorem State.setPc_y (s : State) (v : Int) : (s.setPc v).y = s.y := rfl
@[simp] theorem State.setPc_p (s : State) (v : Int) : (s.setPc v).p = s.p := rfl
@[simp] theorem State.setPc_pc (s : State) (v : Int) : (s.setPc v).pc = v := rfl
@[simp] theorem State.setPc_sp (s : State) (v : Int) : (s.setPc v).sp = s.sp := rfl
@[simp] theorem State.setPc_ram (s : State) (v : Int) : (s.setPc v).ram = s.ram := rfl
@[simp] theorem State.setPc_halted (s : State) (v : Int) : (s.setPc v).halted = s.halted := rfl
@[simp] theorem State.setPc_haltReason (s : State) (v : Int) : (s.setPc v).haltReason = s.haltReason := rfl
@[simp] theorem State.setPc_cfg (s : State) (v : Int) : (s.setPc v).cfg = s.cfg := rfl

@[simp] theorem State.setSp_a (s : State) (v : Int) : (s.setSp v).a = s.a := rfl
@[simp] theorem State.setSp_x (s : State) (v : Int) : (s.setSp v).x = s.x := rfl
@[simp] theorem State.setSp_y (s : State) (v : Int) : (s.setSp v).y = s.y := rfl
@[simp] theorem State.setSp_p (s : State) (v : Int) : (s.setSp v).p = s.p := rfl
@[simp] theorem State.setSp_pc (s : State) (v : Int) : (s.setSp v).pc = s.pc := rfl
@[simp] theorem State.setSp_sp (s : State) (v : Int) : (s.setSp v).sp = v := rfl
@[simp] theorem State.setSp_ram (s : State) (v : Int) : (s.setSp v).ram = s.ram := rfl
@[simp] theorem State.setSp_halted (s : State) (v : Int) : (s.setSp v).halted = s.halted := rfl
@[simp] theorem State.setSp_haltReason (s : State) (v : Int) : (s.setSp v).haltReason = s.haltReason := rfl
@[simp] theorem State.setSp_cfg (s : State) (v : Int) : (s.setSp v).cfg = s.cfg := rfl

@[simp] theorem State.setRam_a (s : State) (v : Memory) : (s.setRam v).a = s.a := rfl
@[simp] theorem State.setRam_x (s : State) (v : Memory) : (s.setRam v).x = s.x := rfl
@[simp] theorem State.setRam_y (s : State) (v : Memory) : (s.setRam v).y = s.y := rfl
@[simp] theorem State.setRam_p (s : State) (v : Memory) : (s.setRam v).p = s.p := rfl
@[simp] theorem State.setRam_pc (s : State) (v : Memory) : (s.setRam v).pc = s.pc := rfl
@[simp] theorem State.setRam_sp (s : State) (v : Memory) : (s.setRam v).sp = s.sp := rfl
@[simp] theorem State.setRam_ram (s : State) (v : Memory) : (s.setRam v).ram = v := rfl
@[simp] theorem State.setRam_halted (s : State) (v : Memory) : (s.setRam v).halted = s.halted := rfl
@[simp] theorem State.setRam_haltReason (s : State) (v : Memory) : (s.setRam v).haltReason = s.haltReason := rfl
@[simp] theorem State.setRam_cfg (s : State) (v : Memory) : (s.setRam v).cfg = s.cfg := rfl

@[simp] theorem State.raise_a (s : State) (r : HaltReason) : (s.raise r).a = s.a := rfl
@[simp] theorem State.raise_x (s : State) (r : HaltReason) : (s.raise r).x = s.x := rfl
@[simp] theorem State.raise_y (s : State) (r : HaltReason) : (s.raise r).y = s.y := rfl
@[simp] theorem State.raise_p (s : State) (r : HaltReason) : (s.raise r).p = s.p := rfl
@[simp] theorem State.raise_pc (s : State) (r : HaltReason) : (s.raise r).pc = s.pc := rfl
@[simp] theorem State.raise_sp (s : State) (r : HaltReason) : (s.raise r).sp = s.sp := rfl
@[simp] theorem State.raise_ram (s : State) (r : HaltReason) : (s.raise r).ram = s.ram := rfl
@[simp] theorem State.raise_halted (s : State) (r : HaltReason) : (s.raise r).halted = true := rfl
@[simp] theorem State.raise_haltReason (s : State) (r : HaltReason) : (s.raise r).haltReason = some r := rfl
@[simp] theorem State.raise_cfg (s : State) (r : HaltReason) : (s.raise r).cfg = s.cfg := rfl

@[simp] theorem State.advancePc_a (s : State) (k : Int) : (s.advancePc k).a = s.a := rfl
@[simp] theorem State.advancePc_x (s : State) (k : Int) : (s.advancePc k).x = s.x := rfl
@[simp] theorem State.advancePc_y (s : State) (k : Int) : (s.advancePc k).y = s.y := rfl
@[simp] theorem State.advancePc_p (s : State) (k : Int) : (s.advancePc k).p = s.p := rfl
@[simp] theorem State.advancePc_pc (s : State) (k : Int) : (s.advancePc k).pc = s.pc + k := rfl
@[simp] theorem State.advancePc_sp (s : State) (k : Int) : (s.advancePc k).sp = s.sp := rfl
@[simp] theorem State.advancePc_ram (s : State) (k : Int) : (s.advancePc k).ram = s.ram := rfl
@[simp] theorem State.advancePc_halted (s : State) (k : Int) : (s.advancePc k).halted = s.halted := rfl
@[simp] theorem State.advancePc_haltReason (s : State) (k : Int) : (s.advancePc k).haltReason = s.haltReason := rfl
@[simp] theorem State.advancePc_cfg (s : State) (k : Int) : (s.advancePc k).cfg = s.cfg := rfl

@[simp] theorem State.advanceX_a (s : State) (k : Int) : (s.advanceX k).a = s.a := rfl
@[simp] theorem State.advanceX_x (s : State) (k : Int) :
    (s.advanceX k).x = normCell s.cfg.cellW (s.x + k) := rfl
@[simp] theorem State.advanceX_y (s : State) (k : Int) : (s.advanceX k).y = s.y := rfl
@[simp] theorem State.advanceX_p (s : State) (k : Int) : (s.advanceX k).p = s.p := rfl
@[simp] theorem State.advanceX_pc (s : State) (k : Int) : (s.advanceX k).pc = s.pc := rfl
@[simp] theorem State.advanceX_sp (s : State) (k : Int) : (s.advanceX k).sp = s.sp := rfl
@[simp] theorem State.advanceX_ram (s : State) (k : Int) : (s.advanceX k).ram = s.ram := rfl
@[simp] theorem State.advanceX_halted (s : State) (k : Int) : (s.advanceX k).halted = s.halted := rfl
@[simp] theorem State.advanceX_haltReason (s : State) (k : Int) : (s.advanceX k).haltReason = s.haltReason := rfl
@[simp] theorem State.advanceX_cfg (s : State) (k : Int) : (s.advanceX k).cfg = s.cfg := rfl

end Sys2Proof.Machine
end

