-- ==== Sys2Proof/Laws/Ops.lean ====
section
/-! SUPPORT. What each shared operation can do, said once; later proofs cite these and do not unfold. -/

namespace Sys2Proof.Machine

/-! ## Width -/

@[simp] theorem normCell_unbounded (v : Int) : normCell .unbounded v = v := rfl

@[simp] theorem fits_unbounded (v : Int) : fits .unbounded v = true := rfl

@[simp] theorem cellPattern_unbounded (v : Int) : cellPattern .unbounded v = v := rfl

/-- A value that the width holds is its own pattern, or its pattern less `2^w` (30_encoding.md R72). -/
theorem cellPattern_bits {w : Nat} {v : Int} (h : fits (.bits w) v = true) :
    cellPattern (.bits w) v = if 0 ≤ v then v else v + 2 ^ w := by
  simp only [fits, Bool.and_eq_true, decide_eq_true_eq] at h
  have hp : (0 : Int) < 2 ^ (w - 1) := by positivity
  have hw : (2 : Int) ^ (w - 1) ≤ 2 ^ w := by gcongr <;> omega
  show v % 2 ^ w = _
  split
  · exact Int.emod_eq_of_lt ‹_› (by omega)
  · rw [← Int.add_emod_right]
    exact Int.emod_eq_of_lt (by omega) (by omega)

/-! ## Statements that can raise -/

@[simp] theorem attempt_ok {α : Type} (s : State) (v : α) (k : α → State) :
    attempt s (.ok v) k = k v := rfl

@[simp] theorem attempt_error {α : Type} (s : State) (r : HaltReason) (k : α → State) :
    attempt s (.error r) k = s.raise r := rfl

@[simp] theorem readOperand_some (v : Int) (s : State) : readOperand (some v) s = .ok v := rfl

@[simp] theorem readOperand_none (s : State) :
    readOperand none s = .error (.programOutOfBounds s.pc) := rfl

@[simp] theorem fetchOperand_some (v : Int) (s : State) (k : State → Int → State) :
    fetchOperand (some v) s k = k (s.advancePc 1) v := rfl

@[simp] theorem fetchOperand_none (s : State) (k : State → Int → State) :
    fetchOperand none s k = (s.advancePc 1).raise (.programOutOfBounds (s.pc + 1)) := rfl

/-! ## Bounds and accesses -/

theorem inBounds_iff {i : Int} {len : Nat} : inBounds i len = true ↔ 0 ≤ i ∧ i < (len : Int) := by
  simp [inBounds]

/-- `MemRead` answers the cell or raises, and which one depends on the address alone. -/
theorem memRead_cases (s : State) (a : Int) :
    (inBounds a s.cfg.ramLen = true ∧ memRead s a = .ok (s.ram.read a.toNat)) ∨
    (inBounds a s.cfg.ramLen = false ∧ memRead s a = .error (.addressOutOfBounds a)) := by
  cases h : inBounds a s.cfg.ramLen <;> simp [memRead, h]

/-- `MemWrite` writes the one cell or raises, and which one depends on the address alone. -/
theorem memWrite_cases (s : State) (a : Int) (v : Int) :
    (inBounds a s.cfg.ramLen = true ∧
      memWrite s a v = .ok (s.setRam (s.ram.write a.toNat v))) ∨
    (inBounds a s.cfg.ramLen = false ∧ memWrite s a v = .error (.addressOutOfBounds a)) := by
  cases h : inBounds a s.cfg.ramLen <;> simp [memWrite, h]

/-- `ProgRead` answers the cell at the index or raises. -/
theorem progRead_cases (s : State) (i : Int) :
    (∃ n : Nat, ∃ v, i = n ∧ s.cfg.program[n]? = some v ∧ progRead s i = .ok v) ∨
    ((i < 0 ∨ (s.cfg.program.length : Int) ≤ i) ∧
      progRead s i = .error (.programOutOfBounds i)) := by
  by_cases h : 0 ≤ i ∧ i < (s.cfg.program.length : Int)
  · obtain ⟨n, rfl⟩ := Int.eq_ofNat_of_zero_le h.1
    have hn : n < s.cfg.program.length := by omega
    refine .inl ⟨n, s.cfg.program[n], rfl, by simp [hn], ?_⟩
    simp [progRead, inBounds_iff.2 h, hn]
  · refine .inr ⟨by omega, ?_⟩
    simp [progRead, show inBounds i s.cfg.program.length = false by
      rw [Bool.eq_false_iff, Ne, inBounds_iff]; exact h]

/-- A read of another cell does not see a write. -/
theorem memRead_setRam_write_other (s : State) {a b : Int} (v : Int)
    (ha : inBounds a s.cfg.ramLen = true) (h : b ≠ a) :
    memRead (s.setRam (s.ram.write a.toNat v)) b = memRead s b := by
  rw [inBounds_iff] at ha
  rcases memRead_cases s b with ⟨hb, e⟩ | ⟨hb, e⟩
  · rw [e]
    have hb' := inBounds_iff.1 hb
    have hne : b.toNat ≠ a.toNat := by omega
    simp [memRead, hb, Memory.read_write_other _ v hne]
  · rw [e]; simp [memRead, hb]

/-- A read of the written cell gives the value. -/
theorem memRead_setRam_write_same (s : State) {a : Int} (v : Int)
    (ha : inBounds a s.cfg.ramLen = true) :
    memRead (s.setRam (s.ram.write a.toNat v)) a = .ok v := by simp [memRead, ha]

/-! ## What the access primitives depend on: `ProgRead` on the parameters, `MemRead` on those and `RAM` -/

@[simp] theorem progRead_setA (s : State) (v : Int) (i : Int) :
    progRead (s.setA v) i = progRead s i := rfl
@[simp] theorem progRead_setX (s : State) (v : Int) (i : Int) :
    progRead (s.setX v) i = progRead s i := rfl
@[simp] theorem progRead_setY (s : State) (v : Int) (i : Int) :
    progRead (s.setY v) i = progRead s i := rfl
@[simp] theorem progRead_setP (s : State) (v : BitVec 8) (i : Int) :
    progRead (s.setP v) i = progRead s i := rfl
@[simp] theorem progRead_setPc (s : State) (v : Int) (i : Int) :
    progRead (s.setPc v) i = progRead s i := rfl
@[simp] theorem progRead_setSp (s : State) (v : Int) (i : Int) :
    progRead (s.setSp v) i = progRead s i := rfl
@[simp] theorem progRead_setRam (s : State) (v : Memory) (i : Int) :
    progRead (s.setRam v) i = progRead s i := rfl
@[simp] theorem progRead_raise (s : State) (v : HaltReason) (i : Int) :
    progRead (s.raise v) i = progRead s i := rfl
@[simp] theorem progRead_advancePc (s : State) (v : Int) (i : Int) :
    progRead (s.advancePc v) i = progRead s i := rfl
@[simp] theorem progRead_advanceX (s : State) (v : Int) (i : Int) :
    progRead (s.advanceX v) i = progRead s i := rfl
@[simp] theorem memRead_setA (s : State) (v : Int) (a : Int) :
    memRead (s.setA v) a = memRead s a := rfl
@[simp] theorem memRead_setX (s : State) (v : Int) (a : Int) :
    memRead (s.setX v) a = memRead s a := rfl
@[simp] theorem memRead_setY (s : State) (v : Int) (a : Int) :
    memRead (s.setY v) a = memRead s a := rfl
@[simp] theorem memRead_setP (s : State) (v : BitVec 8) (a : Int) :
    memRead (s.setP v) a = memRead s a := rfl
@[simp] theorem memRead_setPc (s : State) (v : Int) (a : Int) :
    memRead (s.setPc v) a = memRead s a := rfl
@[simp] theorem memRead_setSp (s : State) (v : Int) (a : Int) :
    memRead (s.setSp v) a = memRead s a := rfl
@[simp] theorem memRead_raise (s : State) (v : HaltReason) (a : Int) :
    memRead (s.raise v) a = memRead s a := rfl
@[simp] theorem memRead_advancePc (s : State) (v : Int) (a : Int) :
    memRead (s.advancePc v) a = memRead s a := rfl
@[simp] theorem memRead_advanceX (s : State) (v : Int) (a : Int) :
    memRead (s.advanceX v) a = memRead s a := rfl

/-! ## Fetch -/

/-- What is fetched, by what the program store holds at `PC` and after it. -/
theorem fetchCells_cases (s : State) :
    (∃ op v rest, progRead s s.pc = .ok op ∧ progRead s (s.pc + 1) = .ok v ∧
      fetchCells s = op :: v :: rest) ∨
    (∃ op, progRead s s.pc = .ok op ∧ s.pc + 1 = (s.cfg.program.length : Int) ∧
      progRead s (s.pc + 1) = .error (.programOutOfBounds (s.pc + 1)) ∧ fetchCells s = [op]) ∨
    (progRead s s.pc = .error (.programOutOfBounds s.pc) ∧
      (s.pc < 0 ∨ (s.cfg.program.length : Int) ≤ s.pc) ∧ fetchCells s = []) := by
  rcases progRead_cases s s.pc with ⟨n, op, hn, hop, hr⟩ | ⟨hout, hr⟩
  · have hlt : n < s.cfg.program.length := (List.getElem?_eq_some_iff.1 hop).1
    have hdrop : s.cfg.program.drop n = op :: s.cfg.program.drop (n + 1) := by
      rw [List.drop_eq_getElem_cons hlt, (List.getElem?_eq_some_iff.1 hop).2]
    have hcells : fetchCells s = op :: s.cfg.program.drop (n + 1) := by
      simp [fetchCells, hn, hdrop]
    rcases progRead_cases s (s.pc + 1) with ⟨m, v, hm, hv, hr'⟩ | ⟨hout, hr'⟩
    · obtain rfl : m = n + 1 := by omega
      have hlt' : n + 1 < s.cfg.program.length := (List.getElem?_eq_some_iff.1 hv).1
      refine .inl ⟨op, v, s.cfg.program.drop (n + 2), hr, hr', ?_⟩
      rw [hcells, List.drop_eq_getElem_cons hlt', (List.getElem?_eq_some_iff.1 hv).2]
    · refine .inr (.inl ⟨op, hr, by omega, hr', ?_⟩)
      rw [hcells, List.drop_eq_nil_of_le (by omega)]
  · refine .inr (.inr ⟨hr, hout, ?_⟩)
    unfold fetchCells
    split
    · rfl
    · exact List.drop_eq_nil_of_le (by omega)

/-- What is fetched at an opcode cell with a cell after it. -/
theorem fetch_two_cells {s : State} {op v : Int} (h : progRead s s.pc = .ok op)
    (hv : progRead s (s.pc + 1) = .ok v) : ∃ rest, fetch s = decode (op :: v :: rest) := by
  rcases fetchCells_cases s with ⟨op', v', rest, ho, hv', hc⟩ | ⟨_, _, _, hv', _⟩ | ⟨ho, _, _⟩
  · rw [h] at ho; rw [hv] at hv'
    injection ho with ho; injection hv' with hv'; subst op' v'
    exact ⟨rest, by rw [fetch, hc]⟩
  · rw [hv] at hv'; cases hv'
  · rw [h] at ho; cases ho

/-- What is fetched at an opcode cell, whatever is after it. -/
theorem fetch_opcode {s : State} {op : Int} (h : progRead s s.pc = .ok op) :
    ∃ rest, fetch s = decode (op :: rest) := by
  rcases fetchCells_cases s with ⟨op', v', rest, ho, _, hc⟩ | ⟨op', ho, _, _, hc⟩ | ⟨ho, _, _⟩
  · rw [h] at ho; injection ho with ho; subst op'
    exact ⟨v' :: rest, by rw [fetch, hc]⟩
  · rw [h] at ho; injection ho with ho; subst op'
    exact ⟨[], by rw [fetch, hc]⟩
  · rw [h] at ho; cases ho

/-- What is fetched at an opcode cell that is the last cell of the program. -/
theorem fetch_last_cell {s : State} {op : Int} (h : progRead s s.pc = .ok op)
    (hl : s.pc + 1 = (s.cfg.program.length : Int)) : fetch s = decode [op] := by
  rcases fetchCells_cases s with ⟨op', v', rest, ho, hv, _⟩ | ⟨op', ho, _, _, hc⟩ | ⟨ho, _, _⟩
  · rcases progRead_cases s (s.pc + 1) with ⟨n, w, hn, hw, _⟩ | ⟨_, he⟩
    · have := (List.getElem?_eq_some_iff.1 hw).1
      omega
    · rw [hv] at he; cases he
  · rw [h] at ho; injection ho with ho; subst op'
    rw [fetch, hc]
  · rw [h] at ho; cases ho

/-! ## The step around a handler -/

@[simp] theorem terminalAdvance_halted {t : State} (h : t.halted = true) :
    terminalAdvance (.next t) = .next t := by simp [terminalAdvance, h]

@[simp] theorem terminalAdvance_running {t : State} (h : t.halted = false) :
    terminalAdvance (.next t) = .next (t.advancePc 1) := by simp [terminalAdvance, h]

theorem step_halted {s : State} (h : s.halted = true) : step s = .next s := by simp [step, h]

theorem step_noOpcodeCell {s : State} (h : s.halted = false) (hf : fetch s = .noOpcodeCell) :
    step s = .next (s.raise (.programOutOfBounds s.pc)) := by simp [step, h, hf]

theorem step_instr {s : State} {i : Instr} {rest : List Int} (h : s.halted = false)
    (hf : fetch s = .instr i rest) : step s = terminalAdvance (exec i s) := by simp [step, h, hf]

/-! ## The host's way to place a word -/

/-- A step after `withFetchWord` fetches exactly the cells of the word. -/
theorem fetchCells_placeAtFetch (s : State) (cs : List Int) :
    ∃ rest, fetchCells (placeAtFetch s cs) = cs ++ rest := by
  refine ⟨s.cfg.program.drop (s.pc.toNat + cs.length), ?_⟩
  have hlen : (s.cfg.program.take s.pc.toNat ++
      List.replicate (s.pc.toNat - s.cfg.program.length) (0 : Int)).length = s.pc.toNat := by
    simp; omega
  have hpc : (placeAtFetch s cs).pc = (s.pc.toNat : Int) := rfl
  have hprog : (placeAtFetch s cs).cfg.program = placeCells s.cfg.program s.pc.toNat cs := rfl
  rw [fetchCells, hpc, hprog, if_neg (by omega), Int.toNat_natCast, placeCells, List.append_assoc,
    List.drop_append_of_le_length (by omega), List.drop_of_length_le (by omega), List.nil_append]

/-- The next step after `withFetchWord` runs the instruction the decoder reads from the word. -/
theorem fetch_withFetchWord (s : State) {nbits w : Nat} {i : Instr}
    (h : decodeTableWord nbits w = some i) :
    ∃ rest, fetch (s.withFetchWord nbits w) = .instr i rest := by
  obtain ⟨rest, hc⟩ := fetchCells_placeAtFetch s (tableCells nbits w)
  obtain ⟨op, v, hcells⟩ : ∃ op v, tableCells nbits w = [op, v] := ⟨_, _, rfl⟩
  rw [decodeTableWord, hcells] at h
  rw [State.withFetchWord, fetch, hc, hcells]
  rcases opcode_cases op with rfl | rfl | rfl | rfl | rfl | rfl | rfl | rfl | rfl | rfl | rfl |
    rfl | rfl | hop
  case inr.inr.inr.inr.inr.inr.inr.inr.inr.inr.inr.inr.inr =>
    rw [decode_unmapped hop] at h
    injection h with h
    subst h
    exact ⟨_, decode_unmapped hop _⟩
  all_goals
    injection h with h
    subst h
    exact ⟨_, rfl⟩

end Sys2Proof.Machine
end

