-- ==== Sys2Proof/Laws/Exec.lean ====
section
/-! SUPPORT. What a handler can do, said once (an inversion lemma), and what a step makes of it. -/

namespace Sys2Proof.Machine

/-- Everything `exec` can do. Each case names the instruction, the condition and the whole state after
the handler; the halting cases end in `raise`. -/
theorem exec_cases {i : Instr} {s t : State} (h : exec i s = .next t) :
    (i = .brk ∧ t = s.raise .brk) ∨
    (∃ op, i = .invalid op ∧ t = s.raise (.invalidOpcode op)) ∨
    (i ∈ [Instr.lda none, .adc none, .sta none, .ldx none, .cmy none, .bne none, .ldy none] ∧
      t = (s.advancePc 1).raise (.programOutOfBounds (s.pc + 1))) ∨
    (∃ v, i = .lda (some v) ∧ t = (s.advancePc 1).setA v) ∨
    (∃ v, i = .ldx (some v) ∧ t = (s.advancePc 1).setX v) ∨
    (∃ v, i = .adc (some v) ∧ t = (s.advancePc 1).setA (normCell s.cfg.cellW (s.a + v))) ∨
    (∃ v, i = .cmy (some v) ∧ t = (s.advancePc 1).setP (flagsAfterCompare s.p (v == s.y))) ∨
    (∃ k, i = .bne (some k) ∧
      t = s.setPc (if flagTest s.p .z then s.pc + 1 else s.pc + 1 + k)) ∨
    (i = .inx ∧ t = s.setX (normCell s.cfg.cellW (s.x + 1))) ∨
    (i = .dey ∧ t = s.setY (normCell s.cfg.cellW (s.y - 1))) ∨
    (∃ a, i = .ldy (some a) ∧ inBounds a s.cfg.ramLen = true ∧
      t = (s.advancePc 1).setY (s.ram.read a.toNat)) ∨
    (∃ a, i = .ldy (some a) ∧ inBounds a s.cfg.ramLen = false ∧
      t = (s.advancePc 1).raise (.addressOutOfBounds a)) ∨
    (∃ a, i = .sta (some a) ∧ inBounds a s.cfg.ramLen = true ∧
      t = (s.advancePc 1).setRam (s.ram.write a.toNat s.a)) ∨
    (∃ a, i = .sta (some a) ∧ inBounds a s.cfg.ramLen = false ∧
      t = (s.advancePc 1).raise (.addressOutOfBounds a)) ∨
    (i = .stax ∧ inBounds s.x s.cfg.ramLen = true ∧ t = s.setRam (s.ram.write s.x.toNat s.a)) ∨
    (i = .stax ∧ inBounds s.x s.cfg.ramLen = false ∧ t = s.raise (.addressOutOfBounds s.x)) ∨
    (∃ o, i = .jsr o ∧ inBounds s.sp s.cfg.ramLen = false ∧
      t = (s.advancePc 1).raise (.addressOutOfBounds s.sp)) ∨
    (∃ k, i = .jsr (some k) ∧ inBounds s.sp s.cfg.ramLen = true ∧
      t = ((s.setRam (s.ram.write s.sp.toNat (normCell s.cfg.cellW (s.pc + 1)))).setSp
        (s.sp - 1)).setPc (k - 1)) ∨
    (i = .jsr none ∧ inBounds s.sp s.cfg.ramLen = true ∧
      t = (((s.advancePc 1).setRam
        (s.ram.write s.sp.toNat (normCell s.cfg.cellW (s.pc + 1)))).setSp (s.sp - 1)).raise
        (.programOutOfBounds (s.pc + 1))) ∨
    (i = .rts ∧ inBounds (s.sp + 1 + s.cfg.rtsReadOffset.val) s.cfg.ramLen = true ∧
      t = (s.setSp (s.sp + 1)).setPc
        (s.ram.read (s.sp + 1 + (s.cfg.rtsReadOffset.val : Int)).toNat)) ∨
    (i = .rts ∧ inBounds (s.sp + 1 + s.cfg.rtsReadOffset.val) s.cfg.ramLen = false ∧
      t = (s.setSp (s.sp + 1)).raise
        (.addressOutOfBounds (s.sp + 1 + s.cfg.rtsReadOffset.val))) := by
  cases i with
  | brk => simp [exec, execBrk] at h; simp [← h]
  | invalid op => simp [exec, execInvalid] at h; simp [← h]
  | inx => simp [exec, execInx, State.advanceX] at h; simp [← h]
  | dey => simp [exec, execDey] at h; simp [← h]
  | lda o => cases o <;> simp [exec, execLda] at h <;> simp [← h]
  | ldx o => cases o <;> simp [exec, execLdx] at h <;> simp [← h]
  | adc o => cases o <;> simp [exec, execAdc] at h <;> simp [← h]
  | cmy o => cases o <;> simp [exec, execCmy] at h <;> simp [← h]
  | bne o =>
    cases o with
    | none => simp [exec, execBne] at h; simp [← h]
    | some k =>
      cases hz : flagTest s.p .z <;> simp [exec, execBne, hz] at h <;> simp [← h] <;> rfl
  | sta o =>
    cases o with
    | none => simp [exec, execSta] at h; simp [h]
    | some a =>
      rcases memWrite_cases (s.advancePc 1) a s.a with ⟨hb, he⟩ | ⟨hb, he⟩ <;>
        simp [exec, execSta, he] at h hb <;> simp [← h, hb]
  | ldy o =>
    cases o with
    | none => simp [exec, execLdy] at h; simp [h]
    | some a =>
      rcases memRead_cases s a with ⟨hb, he⟩ | ⟨hb, he⟩ <;>
        simp [exec, execLdy, he] at h hb <;> simp [← h, hb]
  | stax =>
    rcases memWrite_cases s s.x s.a with ⟨hb, he⟩ | ⟨hb, he⟩ <;>
      simp [exec, execStax, indirectX, he] at h <;> simp [← h, hb]
  | jsr o =>
    rcases memWrite_cases (s.advancePc 1) s.sp (normCell s.cfg.cellW (s.pc + 1)) with
      ⟨hb, he⟩ | ⟨hb, he⟩ <;>
      cases o <;> simp [exec, execJsr, pushAddress, he] at h hb <;>
      (simp [← h, hb]; try rfl)
  | rts =>
    rcases memRead_cases s (s.sp + 1 + (s.cfg.rtsReadOffset.val : Int)) with
      ⟨hb, he⟩ | ⟨hb, he⟩ <;>
      simp [exec, execRts, popAddress, he] at h hb <;> simp [← h, hb]

/-- Everything `step` can do: nothing on a halted machine, the halt of a failed opcode fetch, or a
handler and then the terminal advance unless it halted. -/
theorem step_cases {s t : State} (h : step s = .next t) :
    (s.halted = true ∧ t = s) ∨
    (s.halted = false ∧ fetch s = .noOpcodeCell ∧ t = s.raise (.programOutOfBounds s.pc)) ∨
    (s.halted = false ∧ ∃ i rest u, fetch s = .instr i rest ∧ exec i s = .next u ∧
      t = if u.halted then u else u.advancePc 1) := by
  cases hh : s.halted
  · cases hf : fetch s with
    | noOpcodeCell =>
      rw [step_noOpcodeCell hh hf] at h
      injection h with h
      exact .inr (.inl ⟨rfl, rfl, h.symm⟩)
    | instr i rest =>
      rw [step_instr hh hf] at h
      cases he : exec i s with
      | next u =>
        rw [he] at h
        injection h with h
        exact .inr (.inr ⟨rfl, i, rest, u, rfl, he, h.symm⟩)
      | fault f => rw [he] at h; cases h
      | refused r => rw [he] at h; cases h
  · rw [step_halted hh] at h
    injection h with h
    exact .inl ⟨rfl, h.symm⟩

end Sys2Proof.Machine
end

