-- ==== Sys2Proof/Laws/PerInstr.lean ====
section
/-! SUPPORT. Statements for all instructions, one lemma per constructor of `Instr`. -/

namespace Sys2Proof.Laws.EncodedCells

/-- The encoding is the opcode cell first, and as many cells as 30_encoding.md R61 gives the opcode
(one fewer where the operand cell is missing). -/
def Statement (i : Instr) : Prop :=
  (encode i).head? = some i.opcode ∧
  (encode i).length = if i.complete then i.lengthCells else i.lengthCells - 1

theorem brk : Statement .brk := ⟨rfl, rfl⟩
theorem lda (v : Operand) : Statement (.lda v) := by cases v <;> exact ⟨rfl, rfl⟩
theorem adc (v : Operand) : Statement (.adc v) := by cases v <;> exact ⟨rfl, rfl⟩
theorem sta (a : Operand) : Statement (.sta a) := by cases a <;> exact ⟨rfl, rfl⟩
theorem ldx (v : Operand) : Statement (.ldx v) := by cases v <;> exact ⟨rfl, rfl⟩
theorem inx : Statement .inx := ⟨rfl, rfl⟩
theorem cmy (v : Operand) : Statement (.cmy v) := by cases v <;> exact ⟨rfl, rfl⟩
theorem bne (k : Operand) : Statement (.bne k) := by cases k <;> exact ⟨rfl, rfl⟩
theorem stax : Statement .stax := ⟨rfl, rfl⟩
theorem dey : Statement .dey := ⟨rfl, rfl⟩
theorem ldy (a : Operand) : Statement (.ldy a) := by cases a <;> exact ⟨rfl, rfl⟩
theorem jsr (t : Operand) : Statement (.jsr t) := by cases t <;> exact ⟨rfl, rfl⟩
theorem rts : Statement .rts := ⟨rfl, rfl⟩
theorem invalid (op : Int) : Statement (.invalid op) := ⟨rfl, rfl⟩

end Sys2Proof.Laws.EncodedCells
end

