-- ==== Sys2Proof/Laws/Pseudocode.lean ====
section
/-! SUPPORT. What each statement of the pseudocode does to the state, said once. -/

namespace Sys2Proof.Machine

/-- Statements run one after the other, and a `raise` ends the block with what was done before it
(60_exceptions.md R135). -/
theorem Block.run_bind {α β : Type} (m : Block α) (f : α → Block β) (s : State) :
    (m >>= f).run s =
      match m.run s with
      | (.ok v, t) => (f v).run t
      | (.error r, t) => (.error r, t) := by
  simp only [ExceptT.run, bind, ExceptT.bind, StateT.bind, ExceptT.mk, ExceptT.bindCont]
  rcases m s with ⟨_ | _, _⟩ <;> rfl

@[simp] theorem Block.run_get (s : State) : (get : Block State).run s = (.ok s, s) := rfl

@[simp] theorem Block.run_modify (f : State → State) (s : State) :
    (modify f : Block Unit).run s = (.ok (), f s) := rfl

@[simp] theorem Block.run_pure {α : Type} (v : α) (s : State) :
    (pure v : Block α).run s = (.ok v, s) := rfl

@[simp] theorem Block.run_throw {α : Type} (r : HaltReason) (s : State) :
    (throw r : Block α).run s = (.error r, s) := rfl

@[simp] theorem Block.run_ask (f : State → Except HaltReason Int) (s : State) :
    (Block.ask f).run s = (f s, s) := by
  rw [Block.ask, Block.run_bind, Block.run_get]
  dsimp only
  cases f s <;> rfl

@[simp] theorem Block.run_store (a v : Int) (s : State) :
    (Block.store a v).run s =
      match memWrite s a v with
      | .ok t => (.ok (), t)
      | .error r => (.error r, s) := by
  rw [Block.store, Block.run_bind, Block.run_get]
  dsimp only
  cases memWrite s a v <;> rfl

@[simp] theorem Block.run_fetchOperand (s : State) :
    Block.fetchOperand.run s = (progRead s (s.pc + 1), s.advancePc 1) := by
  rw [Block.fetchOperand, Block.run_bind, Block.run_modify]
  exact Block.run_ask _ _

end Sys2Proof.Machine
end

