-- ==== Sys2Proof/Laws/Run.lean ====
section
/-! SUPPORT. Steps in sequence: the induction over a run, packaged once. -/

namespace Sys2Proof.Machine

/-- The first step of a run of any machine behind the host's interface. -/
theorem coreRun_succ (M : Host.Core) (k : Nat) (s t : M.State) :
    M.run (k + 1) s = .next t ↔ ∃ u, M.step s = .next u ∧ M.run k u = .next t := by
  have h : M.run (k + 1) s = match M.step s with
    | .next u => M.run k u
    | .fault r => .fault r
    | .refused r => .refused r := rfl
  rw [h]
  cases M.step s <;> simp

@[simp] theorem reaches_zero {s t : State} : Reaches 0 s t ↔ t = s := by
  change Host.Outcome.next s = Host.Outcome.next t ↔ _
  rw [Host.Outcome.next.injEq, eq_comm]

/-- The first step of a run. -/
theorem reaches_succ {k : Nat} {s t : State} :
    Reaches (k + 1) s t ↔ ∃ u, step s = .next u ∧ Reaches k u t := coreRun_succ core k s t

/-- Runs compose. -/
theorem reaches_add {j k : Nat} {s t : State} :
    Reaches (j + k) s t ↔ ∃ u, Reaches j s u ∧ Reaches k u t := by
  induction j generalizing s with
  | zero => simp
  | succ j ih =>
    rw [Nat.succ_add, reaches_succ]
    simp only [ih, reaches_succ]
    constructor
    · rintro ⟨u, hu, v, hv, ht⟩; exact ⟨v, ⟨u, hu, hv⟩, ht⟩
    · rintro ⟨v, ⟨u, hu, hv⟩, ht⟩; exact ⟨u, hu, v, hv, ht⟩

/-- A property that holds at the start and that every step keeps holds of every state reached. -/
theorem reaches_induction {Q : State → Prop} (hstep : ∀ s t, Q s → step s = .next t → Q t)
    {k : Nat} {s t : State} (hs : Q s) (h : Reaches k s t) : Q t := by
  induction k generalizing s with
  | zero => obtain rfl := reaches_zero.1 h; exact hs
  | succ k ih =>
    obtain ⟨u, hu, ht⟩ := reaches_succ.1 h
    exact ih (hstep s u hs hu) ht

end Sys2Proof.Machine
end

