-- ==== Sys2Proof/Tests/Slice0.lean ====
section
/-! SUPPORT. The model's own tests: ill-formed terms, decoding, one step at a time, and a witness for
the hypotheses of each obligation. Expected results are the vectors of 95_test_vectors.md (named V-*,
W*, P*, F*) or hand computations from the rules named. -/

open Sys2Proof Sys2Proof.Machine

namespace Sys2Proof.Tests

/-! ## Helpers -/

/-- A machine after construction, with 16 cells of `RAM`. -/
def machine (program : List Int) : State :=
  State.ofConfig { ramLen := 16, program := program, cellW := .unbounded, rtsReadOffset := 0 }

/-- A machine with the given `RAM_LEN`, width and `RTS` offset. -/
def machineWith (ramLen : Nat) (w : CellWidth) (o : Fin 2) (program : List Int) : State :=
  State.ofConfig { ramLen := ramLen, program := program, cellW := w, rtsReadOffset := o }

/-- The next state, if the outcome is one. -/
def nextOf : Result → Option State
  | .next t => some t
  | .fault _ => none
  | .refused _ => none

/-- Some fields of the state after one step. -/
def after {α : Type} (s : State) (f : State → α) : Option α := (nextOf (step s)).map f

/-! ## WellFormed: an ill-formed term for each check -/

theorem smoke_invalid_with_a_mapped_code : (Instr.invalid 12).wf = false := by decide
theorem smoke_invalid_with_code_zero : (Instr.invalid 0).wf = false := by decide
theorem smoke_invalid_unmapped : (Instr.invalid 13).wf = true ∧ (Instr.invalid (-1)).wf = true := by
  decide
theorem smoke_missing_operand : (Instr.jsr none).complete = false := by decide
theorem smoke_operand_outside_width : (Instr.lda (some 128)).cellFits (.bits 8) = false := by decide
theorem smoke_code_outside_width : (Instr.invalid (-129)).cellFits (.bits 8) = false := by decide
theorem smoke_no_ram : configWf ⟨0, [], .unbounded, 0⟩ = false := by decide
theorem smoke_width_one : configWf ⟨1, [], .bits 1, 0⟩ = false := by decide
theorem smoke_program_cell : configWf ⟨1, [1, 200], .bits 8, 0⟩ = false := by decide

theorem smoke_opcode_outside_width : Instr.rts.cellFits (.bits 4) = false := by decide

/-! ## Decoding: words written out from the table of 30_encoding.md R64 -/

theorem test_decode_brk : decode [0, 1] = .instr .brk [1] := by decide
theorem test_decode_lda : decode [1, -5, 0] = .instr (.lda (some (-5))) [0] := by decide
theorem test_decode_adc : decode [2, 7] = .instr (.adc (some 7)) [] := by decide
theorem test_decode_sta : decode [3, 15] = .instr (.sta (some 15)) [] := by decide
theorem test_decode_ldx : decode [4, 200, 0] = .instr (.ldx (some 200)) [0] := by decide
theorem test_decode_inx : decode [5, 0] = .instr .inx [0] := by decide
theorem test_decode_cmy : decode [6, 0] = .instr (.cmy (some 0)) [] := by decide
theorem test_decode_bne : decode [7, -5] = .instr (.bne (some (-5))) [] := by decide
theorem test_decode_stax : decode [8] = .instr .stax [] := by decide
theorem test_decode_dey : decode [9] = .instr .dey [] := by decide
theorem test_decode_ldy : decode [10, 77] = .instr (.ldy (some 77)) [] := by decide
theorem test_decode_jsr : decode [11, 5] = .instr (.jsr (some 5)) [] := by decide
theorem test_decode_rts : decode [12, 12] = .instr .rts [12] := by decide
theorem test_decode_invalid : decode [256, 0] = .instr (.invalid 256) [0] := by decide
theorem test_decode_last_cell : decode [11] = .instr (.jsr none) [] := by decide
theorem test_decode_nothing : decode [] = .noOpcodeCell := by decide

/-- The document's listing (R70), assembled (R71). -/
theorem test_assemble :
    assemble [.lda (some 100), .adc (some 7), .sta (some 15), .brk] = [1, 100, 2, 7, 3, 15, 0] := by
  decide

theorem test_listing : (Instr.bne (some (-5))).listing = "BNE -5" := by decide

/-- R72's last sentence, for `CELL_W = 4`: the pattern of -4 is 0b1100, the code of `RTS`; R66: the
machine takes the cell as invalid (log 24). -/
theorem test_narrow_pattern :
    (OpcodeRow.mk "RTS" (some 12) 1).matchesCell (.bits 4) (-4) = true ∧
    decode [-4] = .instr (.invalid (-4)) [] := by decide

/-- A table word's second cell starts at bit 32 (log 6). -/
theorem test_table_word : decodeTableWord 64 (7 + 0xFFFFFFFB * 2 ^ 32) = some (.bne (some (-5))) := by
  decide

theorem test_fetch_word_runs_first :
    after (State.reset.withFetchWord 32 5) (fun t => (t.x, t.pc)) = some (1, 1) := by decide

/-! ## One step of each instruction -/

/-- V-BRK-1. -/
theorem test_brk : after { machine [0] with a := 107 } (fun t => (t.haltReason, t.pc, t.sp, t.p)) =
    some (some .brk, 0, 15, 0) := by decide

/-- V-LDA-2: no `N`. -/
theorem test_lda : after (machine [1, -5]) (fun t => (t.a, t.pc, t.p)) = some (-5, 2, 0) := by decide

/-- V-LDA-5: the opcode is the last cell. -/
theorem test_lda_last_cell : after { machine [1] with a := 9 }
    (fun t => (t.haltReason, t.pc, t.a)) = some (some (.programOutOfBounds 1), 1, 9) := by decide

/-- V-ADC-3, V-ADC-4 with the carry set: it is not added in, and no flag is written. -/
theorem test_adc : after { machine [2, 1] with a := -1, p := 1 } (fun t => (t.a, t.pc, t.p)) =
    some (0, 2, 1) := by decide

/-- W2's second step, `CELL_W = 8`: 100 + 100 is -56. -/
theorem test_adc_width_8 : after { machineWith 16 (.bits 8) 0 [2, 100] with a := 100 } (·.a) =
    some (-56) := by decide

/-- V-STA-5 at the highest address. -/
theorem test_sta : after { machine [3, 15] with a := -300 } (fun t => (t.ram, t.pc, t.halted)) =
    some ([(15, -300)], 2, false) := by decide

/-- V-STA-4. -/
theorem test_sta_negative : after { machine [3, -1] with a := 5 }
    (fun t => (t.haltReason, t.pc, t.ram)) = some (some (.addressOutOfBounds (-1)), 1, []) := by
  decide

/-- V-LDX-2: no bounds check. -/
theorem test_ldx : after (machine [4, 200]) (fun t => (t.x, t.pc)) = some (200, 2) := by decide

/-- V-INX-2, V-INX-3: no `Z`, no wrap at 256. -/
theorem test_inx : after { machine [5] with x := 255 } (fun t => (t.x, t.pc, t.p)) =
    some (256, 1, 0) := by decide

/-- W1's second step, `CELL_W = 8`. -/
theorem test_inx_width_8 : after { machineWith 16 (.bits 8) 0 [5] with x := 127 } (·.x) =
    some (-128) := by decide

/-- V-CMY-1 with the other flags set: they stay. -/
theorem test_cmy_equal : after { machine [6, 0] with p := 0xFD } (fun t => (t.p, t.pc)) =
    some (0xFF, 2) := by decide

/-- V-CMY-3: a set `Z` is cleared. -/
theorem test_cmy_unequal : after { machine [6, 0] with y := 2, p := 2 } (fun t => (t.p, t.y)) =
    some (0, 2) := by decide

/-- V-BNE-6: to a negative index, not halted. -/
theorem test_bne_taken : after (machine [7, -5]) (fun t => (t.pc, t.halted, t.x)) =
    some (-3, false, 0) := by decide

/-- V-BNE-8: the operand is fetched although `Z` is set. -/
theorem test_bne_last_cell : after { machine [6, 0, 7] with p := 2, pc := 2 }
    (fun t => (t.haltReason, t.pc)) = some (some (.programOutOfBounds 3), 3) := by decide

/-- V-STAX-1. -/
theorem test_stax : after { machine [8] with a := 65, x := 2 } (fun t => (t.ram, t.pc, t.x)) =
    some ([(2, 65)], 1, 2) := by decide

/-- V-STAX-3, at the first address outside. -/
theorem test_stax_outside : after { machine [8] with a := 65, x := 16 }
    (fun t => (t.haltReason, t.pc, t.ram)) = some (some (.addressOutOfBounds 16), 0, []) := by decide

/-- V-DEY-2. -/
theorem test_dey : after (machine [9]) (fun t => (t.y, t.pc, t.p)) = some (-1, 1, 0) := by decide

/-- W3's fourth step, `CELL_W = 8`. -/
theorem test_dey_width_8 : after { machineWith 16 (.bits 8) 0 [9] with y := -128 } (·.y) =
    some 127 := by decide

/-- V-LDY-1. -/
theorem test_ldy : after { machine [10, 10] with ram := [(10, 3)] } (fun t => (t.y, t.pc, t.ram)) =
    some (3, 2, [(10, 3)]) := by decide

/-- V-LDY-3. -/
theorem test_ldy_outside : after { machine [10, 16] with y := 9 } (fun t => (t.haltReason, t.pc, t.y)) =
    some (some (.addressOutOfBounds 16), 1, 9) := by decide

/-- V-JSR-1, over a cell that holds data (V-JSR-7). -/
theorem test_jsr : after { machine [11, 5] with ram := [(15, 99)] } (fun t => (t.ram, t.sp, t.pc)) =
    some ([(15, 1)], 14, 5) := by decide

/-- V-JSR-5: both faults apply, the push is first; V-JSR-4: the push is not undone. -/
theorem test_jsr_faults :
    after { machine [11] with sp := -1 } (fun t => (t.haltReason, t.pc, t.sp)) =
      some (some (.addressOutOfBounds (-1)), 1, -1) ∧
    after (machine [11]) (fun t => (t.haltReason, t.pc, t.sp, t.ram)) =
      some (some (.programOutOfBounds 1), 1, 14, [(15, 1)]) := by decide

/-- V-RTS-2, and V-RTS-6 for `RTS_READ_OFFSET = 1`. -/
theorem test_rts :
    after { machine [12] with sp := 13, ram := [(14, 5), (15, 1)] } (fun t => (t.sp, t.pc)) =
      some (14, 6) ∧
    after { machineWith 16 .unbounded 1 [12] with sp := 13, ram := [(14, 5), (15, 1)] }
      (fun t => (t.sp, t.pc)) = some (14, 2) := by decide

/-- V-RTS-3, and V-RTS-5 for `RTS_READ_OFFSET = 1`. -/
theorem test_rts_outside :
    after (machine [12]) (fun t => (t.haltReason, t.sp, t.pc)) =
      some (some (.addressOutOfBounds 16), 16, 0) ∧
    after { machineWith 16 .unbounded 1 [12] with sp := 14 } (fun t => (t.haltReason, t.sp, t.pc)) =
      some (some (.addressOutOfBounds 16), 15, 0) := by decide

/-- V-INV-2, V-INV-4. -/
theorem test_invalid :
    after (machine [-1]) (fun t => (t.haltReason, t.pc)) = some (some (.invalidOpcode (-1)), 0) ∧
    after (machine [256]) (fun t => (t.haltReason, t.pc)) = some (some (.invalidOpcode 256), 0) := by
  decide

/-! ## The engine, reset and the host -/

/-- V-ENG-1. -/
theorem test_empty_program : after State.reset (fun t => (t.haltReason, t.pc)) =
    some (some (.programOutOfBounds 0), 0) := by decide

/-- V-ENG-3. -/
theorem test_halted : nextOf (step { machine [5] with halted := true, haltReason := some .brk }) =
    some { machine [5] with halted := true, haltReason := some .brk } := by decide

/-- R30 and the reference configuration. -/
theorem test_reset : (State.reset.sp, State.reset.pc, State.reset.ram, State.reset.halted) =
    (255, 0, [], false) := by decide

/-- D9: `ram_size` below 1 is refused. -/
theorem test_construct_refuses : nextOf (construct [0] 0) = none := by decide

/-- `raw()` with `Z` and `N` set (R15). -/
theorem test_raw : flagRaw (flagSet (flagSet 0 .z) .n) = 0x82 := by decide

/-- R29: all `RAM_LEN` cells. -/
theorem test_snapshot :
    ({ machineWith 4 .unbounded 0 [] with ram := [(2, 7)] } : State).snapshot.ram = [0, 0, 7, 0] := by
  decide

/-- V-ENG-2, a run of two steps. -/
theorem test_run : (run 2 (machine [5])).1 = some (.programOutOfBounds 1) := by decide

/-- Writing what an unlisted cell reads as takes the entry out (log 2). -/
theorem test_write_zero : Memory.write [(1, 4), (3, 5)] 3 0 = [(1, 4)] := by decide

/-! ## Witnesses: states that meet the hypotheses of each obligation, clause by clause -/

theorem witness_DecodeOfEncodeIsTheInstruction :
    (Instr.invalid 13).wf = true ∧ (Instr.invalid 13).complete = true ∧
    (Instr.jsr none).wf = true ∧ (Instr.jsr none).complete = false := by decide

theorem witness_EncodeOfDecodeIsTheCells :
    decode [12, 7] = .instr .rts [7] ∧
    decode [7] = .instr (.bne none) [] ∧ (Instr.bne none).complete = false := by decide

theorem witness_OpcodeTableRowMatchesDecodedInstruction :
    decode [13] = .instr (.invalid 13) [] ∧ decode [12] = .instr .rts [] := by decide

theorem witness_StepRunsTheInstructionAtPc :
    (machine [1, 7, 0]).halted = false ∧ (0 : Int) ≤ (machine [1, 7, 0]).pc ∧
    (Instr.lda (some 7)).wf = true ∧ (Instr.lda (some 7)).complete = true ∧
    (machine [1, 7, 0]).cfg.program.drop (machine [1, 7, 0]).pc.toNat =
      encode (.lda (some 7)) ++ [0] ∧
    (nextOf (exec (.lda (some 7)) (machine [1, 7, 0]))).isSome = true := by decide

theorem witness_StepRunsTheInstructionAtPc_last_cell :
    (Instr.jsr none).wf = true ∧
    (machine [11]).cfg.program.drop (machine [11]).pc.toNat = encode (.jsr none) ++ [] ∧
    (nextOf (exec (.jsr none) (machine [11]))).isSome = true := by decide

theorem witness_AssembledInstructionRunsAtItsIndex :
    ({ machine [1, 7, 5, 0] with pc := 2 } : State).halted = false ∧ Instr.inx.wf = true ∧
    Instr.inx.complete = true ∧
    (machine [1, 7, 5, 0]).cfg.program = assemble ([.lda (some 7)] ++ .inx :: [.brk]) ∧
    (2 : Int) = (assemble [.lda (some 7)]).length ∧
    (nextOf (exec .inx { machine [1, 7, 5, 0] with pc := 2 })).isSome = true := by decide

theorem witness_OpcodeFetchReadsTheCellAtPcOrHalts :
    (∀ pc ∈ [(-1 : Int), 2], ({ machine [5, 0] with pc := pc } : State).halted = false ∧
      (pc < 0 ∨ ((machine [5, 0]).cfg.program.length : Int) ≤ pc)) ∧
    (∀ pc ∈ [(0 : Int), 1], 0 ≤ pc ∧ pc < ((machine [5, 0]).cfg.program.length : Int)) := by decide

theorem witness_HaltedMachineNeverChanges :
    ({ machine [5] with halted := true, haltReason := some .brk } : State).halted = true := by decide

/-- A program for each of the fourteen rows, and the eight opcodes that lack their operand cell. -/
def rowPrograms : List (List Int) :=
  [[0], [1, 7], [2, 7], [3, 15], [4, 7], [5], [6, 7], [7, 3], [8], [9], [10, 15], [11, 5], [12],
   [13]] ++ [[1], [2], [3], [4], [6], [7], [10], [11]]

/-- For `PcAfterOneStep` and `HaltKeepsOnlyTheEarlierEffects`: each clause's instruction is fetched by
a running machine whose step has a next state. -/
theorem witness_PcAfterOneStep :
    ∀ prog ∈ rowPrograms, (machine prog).halted = false ∧ fetch (machine prog) ≠ .noOpcodeCell ∧
      (nextOf (step (machine prog))).isSome = true := by decide

theorem witness_PcAfterOneStep_no_cell :
    (machine []).halted = false ∧ fetch (machine []) = .noOpcodeCell ∧
    (nextOf (step (machine []))).isSome = true := by decide

/-- The programs among `rowPrograms` whose one step halts, one for each halting clause. -/
theorem witness_HaltKeepsOnlyTheEarlierEffects :
    ∀ prog ∈ [[], [0], [13], [1], [2], [3], [4], [6], [7], [10], [11], [12], [3, 16], [10, -1]],
      (machine prog).halted = false ∧ after (machine prog) (·.halted) = some true := by decide

theorem witness_HaltKeepsOnlyTheEarlierEffects_push_and_stax :
    after { machine [11, 0] with sp := -1 } (·.halted) = some true ∧
    after { machine [8] with x := 16 } (·.halted) = some true := by decide

theorem witness_LdaAndLdxLoadTheOperand :
    (machine [1, 7]).halted = false ∧ progRead (machine [1, 7]) 1 = .ok 7 ∧
    progRead (machine [1, 7]) 0 = .ok 1 ∧
    (machine [4, -7]).halted = false ∧ progRead (machine [4, -7]) 1 = .ok (-7) ∧
    progRead (machine [4, -7]) 0 = .ok 4 := by decide

theorem witness_LdyLoadsTheRamCell :
    (∀ a ∈ [(0 : Int), 15], memRead (machine [10, a]) a = .ok 0 ∧
      (machine [10, a]).halted = false ∧ progRead (machine [10, a]) 0 = .ok 10 ∧
      progRead (machine [10, a]) 1 = .ok a) ∧
    (∀ a ∈ [(-1 : Int), 16], (a < 0 ∨ ((machine [10, a]).cfg.ramLen : Int) ≤ a) ∧
      (machine [10, a]).halted = false ∧ progRead (machine [10, a]) 0 = .ok 10 ∧
      progRead (machine [10, a]) 1 = .ok a) := by decide

theorem witness_StaStoresTheAccumulator :
    (∀ a ∈ [(0 : Int), 15], 0 ≤ a ∧ a < ((machine [3, a]).cfg.ramLen : Int) ∧
      (machine [3, a]).halted = false ∧ progRead (machine [3, a]) 0 = .ok 3 ∧
      progRead (machine [3, a]) 1 = .ok a) ∧
    (∀ a ∈ [(-1 : Int), 16], (a < 0 ∨ ((machine [3, a]).cfg.ramLen : Int) ≤ a) ∧
      (machine [3, a]).halted = false ∧ progRead (machine [3, a]) 0 = .ok 3 ∧
      progRead (machine [3, a]) 1 = .ok a) := by decide

theorem witness_StaxStoresTheAccumulatorAtX :
    (∀ x ∈ [(0 : Int), 15], 0 ≤ x ∧ x < ((machine [8]).cfg.ramLen : Int)) ∧
    (∀ x ∈ [(-1 : Int), 16], x < 0 ∨ ((machine [8]).cfg.ramLen : Int) ≤ x) ∧
    (machine [8]).halted = false ∧ progRead (machine [8]) 0 = .ok 8 := by decide

theorem witness_MissingOperandCellHalts :
    ∀ op ∈ [(1 : Int), 2, 3, 4, 6, 7, 10], (machine [op]).halted = false ∧
      progRead (machine [op]) (machine [op]).pc = .ok op ∧
      (machine [op]).pc + 1 = ((machine [op]).cfg.program.length : Int) := by decide

theorem witness_AdcAddsTheOperand :
    (machine [2, 7]).cfg.cellW = .unbounded ∧ (machine [2, 7]).halted = false ∧
    progRead (machine [2, 7]) 0 = .ok 2 ∧ progRead (machine [2, 7]) 1 = .ok 7 := by decide

theorem witness_InxIncrementsX :
    (machine [5]).halted = false ∧ progRead (machine [5]) 0 = .ok 5 ∧
    (machine [5]).cfg.cellW = .unbounded := by decide

theorem witness_DeyDecrementsY :
    (machine [9]).halted = false ∧ progRead (machine [9]) 0 = .ok 9 ∧
    (machine [9]).cfg.cellW = .unbounded := by decide

theorem witness_CmySetsZeroFlagOnEquality :
    (machine [6, 7]).halted = false ∧ progRead (machine [6, 7]) 0 = .ok 6 ∧
    progRead (machine [6, 7]) 1 = .ok 7 := by decide

theorem witness_NormIsTheSignedWrap :
    2 ≤ 2 ∧ fits (.bits 2) (-2) = true ∧ (-2 : Int) - 2 = (-1) * 2 ^ 2 := by decide

theorem witness_BrkHaltsWithBreak :
    (machine [0]).halted = false ∧ progRead (machine [0]) 0 = .ok 0 := by decide

theorem witness_BneBranchesWhenZeroFlagIsClear :
    (machine [7, -5]).halted = false ∧ progRead (machine [7, -5]) 0 = .ok 7 ∧
    progRead (machine [7, -5]) 1 = .ok (-5) := by decide

theorem witness_BneChangesOnlyPc :
    fetch (machine [7, 3]) = .instr (.bne (some 3)) [] ∧ (Instr.bne (some 3)).mnemonic = "BNE" ∧
    after (machine [7, 3]) (·.halted) = some false ∧
    fetch (machine [7]) = .instr (.bne none) [] ∧ after (machine [7]) (·.halted) = some true := by
  decide

theorem witness_BneOperandReachesItsTarget :
    (machine [7, 3]).halted = false ∧ flagTest (machine [7, 3]).p .z = false ∧
    progRead (machine [7, 3]) 0 = .ok 7 ∧
    progRead (machine [7, 3]) 1 = .ok ((5 : Int) - (machine [7, 3]).pc - 2) := by decide

theorem witness_BranchToItselfNeverHalts :
    (machine [7, -2]).halted = false ∧ flagTest (machine [7, -2]).p .z = false ∧
    progRead (machine [7, -2]) 0 = .ok 7 ∧ progRead (machine [7, -2]) 1 = .ok (-2) := by decide

theorem witness_JsrPushesAndTransfers :
    (∀ sp ∈ [(0 : Int), 15], 0 ≤ sp ∧ sp < ((machine [11, 5]).cfg.ramLen : Int)) ∧
    (machine [11, 5]).halted = false ∧ progRead (machine [11, 5]) 0 = .ok 11 ∧
    progRead (machine [11, 5]) 1 = .ok 5 := by decide

theorem witness_JsrFaultsPushBeforeOperand :
    (∀ sp ∈ [(-1 : Int), 16], sp < 0 ∨ ((machine [11]).cfg.ramLen : Int) ≤ sp) ∧
    (∀ sp ∈ [(0 : Int), 15], 0 ≤ sp ∧ sp < ((machine [11]).cfg.ramLen : Int)) ∧
    (machine [11]).halted = false ∧ progRead (machine [11]) 0 = .ok 11 ∧
    (machine [11]).pc + 1 = ((machine [11]).cfg.program.length : Int) := by decide

theorem witness_RtsPopsAndTransfers :
    (∀ sp ∈ [(-1 : Int), 14], memRead { machine [12] with sp := sp } (sp + 1 + 0) = .ok 0) ∧
    (∀ sp ∈ [(-2 : Int), 15], sp + 1 + 0 < 0 ∨ ((machine [12]).cfg.ramLen : Int) ≤ sp + 1 + 0) ∧
    ((machine [12]).cfg.rtsReadOffset.val : Int) = 0 ∧ (machine [12]).halted = false ∧
    progRead (machine [12]) 0 = .ok 12 := by decide

theorem witness_UnmappedOpcodeHalts :
    ∀ op ∈ [(-1 : Int), 13], (op < 0 ∨ 12 < op) ∧ (machine [op]).halted = false ∧
      progRead (machine [op]) (machine [op]).pc = .ok op := by decide

/-- Program P4 up to the call and to the return: `JSR 3, BRK, INX, RTS`. -/
def callMachine : State := machine [11, 3, 0, 5, 12]
def calledMachine : State := { callMachine with pc := 3, sp := 14, ram := [(15, 1)] }
def returningMachine : State := { calledMachine with pc := 4, x := 1 }

theorem witness_ReturnResumesAfterTheCall :
    (callMachine.cfg.cellW = .unbounded ∧ callMachine.cfg.rtsReadOffset = 0 ∧
      callMachine.halted = false ∧ progRead callMachine 0 = .ok 11 ∧
      progRead callMachine 1 = .ok 3 ∧ 0 ≤ callMachine.sp ∧
      callMachine.sp < (callMachine.cfg.ramLen : Int)) ∧
    step callMachine = .next calledMachine ∧ Reaches 1 calledMachine returningMachine ∧
    (returningMachine.halted = false ∧ returningMachine.sp = calledMachine.sp ∧
      memRead returningMachine callMachine.sp = memRead calledMachine callMachine.sp ∧
      progRead returningMachine returningMachine.pc = .ok 12) :=
  ⟨by decide, rfl, rfl, by decide⟩

theorem witness_NestedCallsKeepOuterReturnAddresses :
    Reaches 1 calledMachine returningMachine ∧ calledMachine.sp < 15 ∧
    fetch calledMachine = .instr .inx [12] ∧ Instr.inx ≠ .sta (some 15) ∧
    ¬ (Instr.inx = .stax ∧ calledMachine.x = 15) :=
  ⟨rfl, by decide, by decide, by decide, by decide⟩

theorem witness_ProgReadIsBoundsChecked :
    (∀ i ∈ [(0 : Int), 1], 0 ≤ i ∧ i < ((machine [5, 0]).cfg.program.length : Int)) ∧
    (∀ i ∈ [(-1 : Int), 2], i < 0 ∨ ((machine [5, 0]).cfg.program.length : Int) ≤ i) := by decide

theorem witness_RamReadsWhatWasWritten :
    (∀ a ∈ [(0 : Int), 15], 0 ≤ a ∧ a < ((machine []).cfg.ramLen : Int)) ∧
    (∀ a ∈ [(-1 : Int), 16], a < 0 ∨ ((machine []).cfg.ramLen : Int) ≤ a) := by decide

/-- The unwritten cell 14 of the machine that calls. -/
theorem witness_RamReadsWhatWasWritten_unwritten :
    callMachine = State.ofConfig callMachine.cfg ∧ Reaches 1 callMachine calledMachine ∧
    fetch callMachine = .instr (.jsr (some 3)) [0, 5, 12] ∧
    storeAddress (.jsr (some 3)) callMachine ≠ some 14 := ⟨rfl, rfl, by decide, by decide⟩

theorem witness_OnlyTheStoreAddressChanges :
    (nextOf (exec (.sta (some 15)) (machine []))).isSome = true ∧
    storeAddress (.sta (some 15)) (machine []) ≠ some 14 := by decide

theorem witness_FetchIsNeverAffectedByAStore : Reaches 1 calledMachine returningMachine := rfl

theorem witness_FiniteWidthRowsMatchTheDecodedInstruction :
    (∀ op ∈ [(0 : Int), 7], fits (.bits 4) op = true) ∧
    decode [7, 3] = .instr (.bne (some 3)) [] ∧
    (∀ op ∈ [(-16 : Int), -1, 15], fits (.bits 5) op = true ∧ decode [op] = .instr (.invalid op) []) ∧
    (∀ op ∈ [(-8 : Int), -4, -3, -1], fits (.bits 4) op = true ∧
      decode [op] = .instr (.invalid op) []) := by decide

/-- For each premise `t.r ≠ s.r`, an instruction that meets it. -/
theorem witness_OnlyTheListedInstructionsWriteEachRegister :
    (nextOf (exec (.lda (some 1)) (machine []))).map (·.a) = some 1 ∧
    (nextOf (exec .inx (machine []))).map (·.x) = some 1 ∧
    (nextOf (exec .dey (machine []))).map (·.y) = some (-1) ∧
    (nextOf (exec (.cmy (some 0)) (machine []))).map (·.p) = some 2 ∧
    (nextOf (exec (.jsr (some 0)) (machine []))).map (fun t => (t.sp, t.ram, t.pc)) =
      some (14, [(15, 1)], -1) ∧
    (nextOf (exec .brk (machine []))).map (fun t => (t.halted, t.haltReason)) =
      some (true, some .brk) := by decide

theorem witness_OnlyCmyWritesAndOnlyBneReadsAFlag :
    (nextOf (exec (.cmy (some 0)) (machine []))).map (flagTest ·.p .z) = some true ∧
    (nextOf (exec (.bne (some 3)) (machine []))).isSome = true ∧
    flagTest 0xFD .z = flagTest (machine []).p .z := by decide

/-- A halt by each instruction that can raise, on a machine that was running. -/
theorem witness_EachInstructionRaisesOnlyItsReasons :
    ∀ i ∈ [Instr.brk, .lda none, .ldx none, .adc none, .cmy none, .bne none, .sta none,
        .sta (some 16), .ldy none, .ldy (some (-1)), .jsr none, .rts, .invalid 13],
      (machine []).halted = false ∧ (nextOf (exec i (machine []))).map (·.halted) = some true := by
  decide

theorem witness_EachInstructionRaisesOnlyItsReasons_stax :
    (nextOf (exec .stax { machine [] with x := 16 })).map (·.halted) = some true ∧
    (nextOf (exec (.jsr (some 0)) { machine [] with sp := -1 })).map (·.halted) = some true := by
  decide

theorem witness_EveryRunHasExactlyOneOutcome : LatchConsistent (machine [0]) := rfl

theorem witness_StepKeepsRamCanonical :
    RamCanonical { machine [3, 15] with ram := [(0, 4), (15, 5)] } ∧
    (nextOf (step { machine [3, 15] with ram := [(0, 4), (15, 5)] })).isSome = true :=
  ⟨by unfold RamCanonical; decide, by decide⟩

theorem witness_StepKeepsStackPointerWithin :
    (∀ sp ∈ [(-1 : Int), 15], SpWithin { machine [12] with sp := sp }) ∧
    after { machine [12] with sp := -1 } (·.sp) = some 0 :=
  ⟨by unfold SpWithin; decide, by decide⟩

theorem witness_StepKeepsHaltLatchConsistent :
    LatchConsistent { machine [0] with halted := true, haltReason := some .brk } ∧
    (nextOf (step (machine [0]))).isSome = true ∧ LatchConsistent (machine [0]) :=
  ⟨rfl, by decide, rfl⟩

theorem witness_StepKeepsOtherFlagsClear :
    OnlyZeroFlag { machine [6, 0] with p := 2 } ∧
    after { machine [6, 0] with p := 2 } (·.p) = some 2 :=
  ⟨fun f hf => by cases f <;> first | exact absurd rfl hf | decide, by decide⟩

/-- A run of `ADC` at the top of the 8-bit range. -/
theorem witness_StepKeepsValuesInTheCellWidth :
    legalWidth (.bits 8) = true ∧ ValuesFit { machineWith 16 (.bits 8) 0 [2, 127] with a := 127 } ∧
    after { machineWith 16 (.bits 8) 0 [2, 127] with a := 127 } (·.a) = some (-2) :=
  ⟨by decide, ⟨by decide, by decide, by decide, fun _ => (show fits (.bits 8) 0 = true by decide),
    by decide⟩, by decide⟩

theorem witness_ResetMeetsTheInvariants :
    configWf ⟨1, [], .unbounded, 0⟩ = true ∧ configWf ⟨640, [127], .bits 8, 1⟩ = true := by decide

theorem witness_ConstructionGivesTheResetState :
    (1 : Int) ≤ 1 ∧ (nextOf (construct [0] 1)).isSome = true := by decide

theorem witness_ConstructionRefusesExactlyWhatIsOutside :
    nextOf (construct [] 0) = none ∧ nextOf (construct [] 1 (.bits 1)) = none ∧
    nextOf (construct [128] 1 (.bits 8)) = none ∧
    (nextOf (construct [127] 1 (.bits 8))).isSome = true := by decide

theorem witness_RunContinuesAfterSteps :
    Reaches 1 calledMachine returningMachine ∧ returningMachine.halted = false ∧
    (run 2 returningMachine).1 = some .brk := ⟨rfl, by decide, by decide⟩

/-- A first halted state after one step, and a machine that is halted already. -/
theorem witness_RunContinuesAfterSteps_halted :
    Reaches 1 (machine [0]) ((machine [0]).raise .brk) ∧ ((machine [0]).raise .brk).halted = true ∧
    (machine [0]).halted = false ∧ (run 3 ((machine [0]).raise .brk)).1 = some .brk :=
  ⟨rfl, by decide, by decide, by decide⟩

/-- The first halted state after one step is the only one before which every state runs. -/
theorem witness_RunContinuesAfterSteps_first :
    ∀ j v, j < 1 → Reaches j (machine [0]) v → v.halted = false := by
  intro j v hj hv
  obtain rfl : j = 0 := by omega
  injection hv with hv
  rw [← hv]
  decide

theorem witness_SnapshotShowsEveryRamCell :
    (machine []).snapshot.ram[15]? = some 0 ∧ memRead (machine []) ((15 : Nat) : Int) = .ok 0 := by
  decide

end Sys2Proof.Tests
end

section
/-! PROOFS. What the flags influence and what influences them (10_state.md R16). -/

namespace Sys2Proof.Machine

/-- The flags a handler leaves when it starts from the flags `p` with `Y = y`: only a `CMY` that has
its operand writes any (R16, 42_arith_compare.md R113). -/
def flagsAfterExec (i : Instr) (y : Int) (p : BitVec 8) : BitVec 8 :=
  match i with
  | .cmy (some v) => flagsAfterCompare p (v == y)
  | _ => p

theorem flagTest_flagsAfterExec_other (i : Instr) (y : Int) (p : BitVec 8) {f : Flag}
    (hf : f ≠ .z) : flagTest (flagsAfterExec i y p) f = flagTest p f := by
  unfold flagsAfterExec
  split
  · rw [flagTest_flagsAfterCompare, if_neg hf]
  · rfl

theorem flagsAfterExec_eq_or_cmy (i : Instr) (y : Int) (p : BitVec 8) :
    flagsAfterExec i y p = p ∨ ∃ v, i = .cmy (some v) := by
  unfold flagsAfterExec
  split
  · exact .inr ⟨_, rfl⟩
  · exact .inl rfl

/-! The next four lemmas: replacing the flags before a statement that can raise is replacing them
after it, provided the statements that follow have this property. -/

theorem attempt_setP {α : Type} {r : Except HaltReason α} {s : State} {q : BitVec 8}
    {k k' : α → State} (hk : ∀ v, k' v = (k v).setP q) :
    attempt (s.setP q) r k' = (attempt s r k).setP q := by
  cases r with
  | ok v => exact hk v
  | error e => rfl

theorem memWrite_setP (s : State) (q : BitVec 8) (a v : Int) :
    memWrite (s.setP q) a v = (memWrite s a v).map (State.setP · q) := by
  cases hb : inBounds a s.cfg.ramLen
  · simp [memWrite, hb, Except.map]
  · simp only [memWrite, State.setP_cfg, hb, if_true]
    rfl

theorem attempt_memWrite_setP {s : State} {q : BitVec 8} {a v : Int} {k : State → State}
    (hk : ∀ u, k (u.setP q) = (k u).setP q) :
    attempt (s.setP q) (memWrite (s.setP q) a v) k = (attempt s (memWrite s a v) k).setP q := by
  rw [memWrite_setP]
  cases memWrite s a v with
  | ok u => exact hk u
  | error e => rfl

theorem fetchOperand_setP {o : Operand} {s : State} {q : BitVec 8} {k : State → Int → State}
    (hk : ∀ v, k ((s.advancePc 1).setP q) v = (k (s.advancePc 1) v).setP q) :
    fetchOperand o (s.setP q) k = (fetchOperand o s k).setP q := by
  cases o with
  | none => rfl
  | some v => exact hk v

/-- Noninterference: from other flags, with the same `Z` for `BNE`, a handler reaches the same state
but for the flags, and leaves those by the same rule. -/
theorem exec_setP {i : Instr} {s t : State} (h : exec i s = .next t) {q : BitVec 8}
    (hz : (∃ k, i = .bne k) → flagTest q .z = flagTest s.p .z) :
    exec i (s.setP q) = .next (t.setP (flagsAfterExec i s.y q)) := by
  cases i with
  | brk | invalid op | inx | dey => cases h; rfl
  | cmy o => cases o <;> cases h <;> rfl
  | lda o | ldx o | adc o =>
    cases h
    exact congrArg _ (fetchOperand_setP fun _ => rfl)
  | bne o =>
    cases h
    refine congrArg _ (fetchOperand_setP fun k => ?_)
    have hq : flagTest ((s.advancePc 1).setP q).p .z = flagTest (s.advancePc 1).p .z := hz ⟨o, rfl⟩
    rw [hq]
    cases flagTest (s.advancePc 1).p .z <;> rfl
  | ldy o =>
    cases h
    refine congrArg _ (fetchOperand_setP fun _ => attempt_setP ?_)
    exact fun _ => rfl
  | sta o =>
    cases h
    exact congrArg _ (fetchOperand_setP fun _ => attempt_memWrite_setP fun _ => rfl)
  | stax =>
    cases h
    exact congrArg _ (attempt_memWrite_setP fun _ => rfl)
  | jsr o =>
    cases h
    refine congrArg _ (attempt_memWrite_setP (s := s.advancePc 1) fun u => ?_)
    exact attempt_setP (s := u.setSp (u.sp - 1)) fun _ => rfl
  | rts =>
    cases h
    refine congrArg _ (attempt_setP (s := s.setSp (s.sp + 1)) ?_)
    exact fun _ => rfl

/-- The flags after a handler. -/
theorem exec_p {i : Instr} {s t : State} (h : exec i s = .next t) :
    t.p = flagsAfterExec i s.y s.p := by
  have hsame : exec i s = .next (t.setP (flagsAfterExec i s.y s.p)) := exec_setP h fun _ => rfl
  rw [h] at hsame
  injection hsame with hsame
  exact congrArg State.p hsame

/-- A flag that a handler changes is `Z`, and the handler is that of a `CMY` with its operand. -/
theorem exec_flag_changed {i : Instr} {s t : State} (h : exec i s = .next t) {f : Flag}
    (hf : flagTest t.p f ≠ flagTest s.p f) : f = .z ∧ ∃ v, i = .cmy (some v) := by
  rw [exec_p h] at hf
  constructor
  · by_contra hne
    exact hf (flagTest_flagsAfterExec_other i s.y s.p hne)
  · exact (flagsAfterExec_eq_or_cmy i s.y s.p).resolve_left fun e => hf (by rw [e])

/-- Settles O38: `CMY` and `BNE` by their handlers, what is written by `exec_flag_changed`, what is
read by `exec_setP`. -/
theorem onlyCmyWritesAndOnlyBneReadsAFlag : Obligations.OnlyCmyWritesAndOnlyBneReadsAFlag := by
  refine ⟨fun s v => ⟨_, rfl, ?_⟩, fun s k => ⟨_, rfl, ?_⟩, fun i s t h => ⟨?_, fun q hz => ?_⟩⟩
  · simp [flagTest_flagsAfterCompare]
  · cases hz : flagTest s.p .z <;> simp [hz]
  · exact fun f => exec_flag_changed h
  · exact ⟨_, exec_setP h hz, rfl, fun f => flagTest_flagsAfterExec_other i s.y q⟩

end Sys2Proof.Machine
end

section
/-! PROOFS. What construction gives (10_state.md R30). -/

namespace Sys2Proof.Machine

@[simp] theorem flagTest_zero (f : Flag) : flagTest 0 f = false := by simp [flagTest]

/-- A machine that nothing has written to reads 0 in every cell of `RAM` (10_state.md R30). -/
theorem memRead_ofConfig {c : Config} {a : Int} (h₀ : 0 ≤ a) (h₁ : a < (c.ramLen : Int)) :
    memRead (State.ofConfig c) a = .ok 0 :=
  if_pos (inBounds_iff.2 ⟨h₀, h₁⟩)

/-- In the spec's configuration nothing but the size can refuse a construction. -/
theorem construct_unbounded (program : List Int) {size : Int} (h : 1 ≤ size) :
    construct program size = .next (State.ofConfig ⟨size.toNat, program, .unbounded, 0⟩) := by
  have hfits : program.find? (fun v => !fits .unbounded v) = none := by simp
  rw [construct, if_neg (by omega), hfits]
  rfl

/-- Settles O49: construction gives `State.ofConfig`, whose fields are the values of R30. -/
theorem constructionGivesTheResetState : Obligations.ConstructionGivesTheResetState := by
  intro program size hsize
  have hlen : (size.toNat : Int) = size := Int.toNat_of_nonneg (by omega)
  refine ⟨_, construct_unbounded program hsize, rfl, rfl, rfl, flagTest_zero, rfl, rfl, ?_,
    fun a h₀ h₁ => ?_, rfl, rfl, rfl, hlen⟩
  · exact congrArg (· - 1) hlen
  · exact memRead_ofConfig h₀ (hlen.symm ▸ h₁)

end Sys2Proof.Machine
end

section
/-! PROOFS. The access primitives (20_memory.md R43 to R45), and what handlers, steps and runs leave of
`RAM` and of the program store (R45, R52). -/

namespace Sys2Proof.Machine

/-! ## Inside and outside the bounds -/

theorem inBounds_eq_false_iff {i : Int} {len : Nat} :
    inBounds i len = false ↔ i < 0 ∨ (len : Int) ≤ i := by
  rw [Bool.eq_false_iff, Ne, inBounds_iff]
  omega

theorem memRead_inside {s : State} {a : Int} (h : inBounds a s.cfg.ramLen = true) :
    memRead s a = .ok (s.ram.read a.toNat) := if_pos h

theorem memRead_outside {s : State} {a : Int} (h : inBounds a s.cfg.ramLen = false) :
    memRead s a = .error (.addressOutOfBounds a) := if_neg (by simp [h])

theorem memWrite_inside {s : State} {a : Int} (h : inBounds a s.cfg.ramLen = true) (v : Int) :
    memWrite s a v = .ok (s.setRam (s.ram.write a.toNat v)) := if_pos h

theorem memWrite_outside {s : State} {a : Int} (h : inBounds a s.cfg.ramLen = false) (v : Int) :
    memWrite s a v = .error (.addressOutOfBounds a) := if_neg (by simp [h])

/-- `ProgRead` depends on the parameters alone. -/
theorem progRead_congr {s t : State} (h : t.cfg = s.cfg) (i : Int) :
    progRead t i = progRead s i := by rw [progRead, progRead, h]

/-- `MemRead` depends on the parameters and `RAM` alone. -/
theorem memRead_congr {s t : State} (hcfg : t.cfg = s.cfg) (hram : t.ram = s.ram) (a : Int) :
    memRead t a = memRead s a := by rw [memRead, memRead, hcfg, hram]

/-! ## The frame of a handler, of a step and of a run -/

/-- What a handler can do to the parameters and to `RAM`: nothing to the parameters, and nothing to
`RAM` but a write at its store address. Four cases of `exec_cases` write: `STA`, `STAX`, and `JSR`
with and without its operand. -/
theorem exec_ram_cases {i : Instr} {s t : State} (h : exec i s = .next t) :
    t.cfg = s.cfg ∧
      (t.ram = s.ram ∨
        ∃ a v, storeAddress i s = some a ∧ inBounds a s.cfg.ramLen = true ∧
          t.ram = s.ram.write a.toNat v) := by
  rcases exec_cases h with ⟨-, rfl⟩ | ⟨_, -, rfl⟩ | ⟨-, rfl⟩ | ⟨_, -, rfl⟩ | ⟨_, -, rfl⟩ |
    ⟨_, -, rfl⟩ | ⟨_, -, rfl⟩ | ⟨_, -, rfl⟩ | ⟨-, rfl⟩ | ⟨-, rfl⟩ | ⟨_, -, -, rfl⟩ |
    ⟨_, -, -, rfl⟩ | ⟨a, rfl, ha, rfl⟩ | ⟨_, -, -, rfl⟩ | ⟨rfl, ha, rfl⟩ | ⟨-, -, rfl⟩ |
    ⟨_, -, -, rfl⟩ | ⟨k, rfl, ha, rfl⟩ | ⟨rfl, ha, rfl⟩ | ⟨-, -, rfl⟩ | ⟨-, -, rfl⟩ <;>
    refine ⟨rfl, ?_⟩
  all_goals try exact .inl rfl
  all_goals exact .inr ⟨_, _, rfl, ha, rfl⟩

theorem exec_cfg {i : Instr} {s t : State} (h : exec i s = .next t) : t.cfg = s.cfg :=
  (exec_ram_cases h).1

/-- A handler changes no cell but the one at its store address. -/
theorem exec_memRead_other {i : Instr} {s t : State} {b : Int} (h : exec i s = .next t)
    (hb : storeAddress i s ≠ some b) : memRead t b = memRead s b := by
  obtain ⟨hcfg, hram | ⟨a, v, hstore, ha, hram⟩⟩ := exec_ram_cases h
  · exact memRead_congr hcfg hram b
  · have hne : b ≠ a := fun e => hb (e ▸ hstore)
    rw [← memRead_setRam_write_other s v ha hne]
    exact memRead_congr (s := s.setRam (s.ram.write a.toNat v)) hcfg hram b

theorem step_cfg {s t : State} (h : step s = .next t) : t.cfg = s.cfg := by
  rcases step_cases h with ⟨-, rfl⟩ | ⟨-, -, rfl⟩ | ⟨-, i, rest, u, -, he, rfl⟩
  · rfl
  · rfl
  · have hu : u.cfg = s.cfg := exec_cfg he
    split <;> exact hu

/-- A step changes no cell but the one at the store address of the instruction it fetches. -/
theorem step_memRead_other {s t : State} {b : Int} (h : step s = .next t)
    (hb : ∀ i rest, fetch s = .instr i rest → storeAddress i s ≠ some b) :
    memRead t b = memRead s b := by
  rcases step_cases h with ⟨-, rfl⟩ | ⟨-, -, rfl⟩ | ⟨-, i, rest, u, hf, he, rfl⟩
  · rfl
  · rfl
  · have hu : memRead u b = memRead s b := exec_memRead_other he (hb i rest hf)
    split <;> exact hu

theorem reaches_cfg {k : Nat} {s t : State} (h : Reaches k s t) : t.cfg = s.cfg :=
  reaches_induction (Q := fun u => u.cfg = s.cfg) (fun _ _ hu hst => (step_cfg hst).trans hu) rfl h

/-- A run in which no fetched instruction has `b` as its store address keeps the cell at `b`. -/
theorem reaches_memRead_other {k : Nat} {s t : State} {b : Int} (h : Reaches k s t)
    (hb : ∀ j u i rest, j < k → Reaches j s u → fetch u = .instr i rest →
      storeAddress i u ≠ some b) : memRead t b = memRead s b := by
  induction k generalizing s with
  | zero => rw [reaches_zero.1 h]
  | succ k ih =>
    obtain ⟨u, hu, ht⟩ := reaches_succ.1 h
    have hfirst : memRead u b = memRead s b :=
      step_memRead_other hu fun i rest => hb 0 s i rest k.succ_pos (reaches_zero.2 rfl)
    have hrest : memRead t b = memRead u b := ih ht fun j v i rest hj hv =>
      hb (j + 1) v i rest (Nat.succ_lt_succ hj) (reaches_succ.2 ⟨u, hu, hv⟩)
    exact hrest.trans hfirst

/-! ## The obligations -/

/-- Settles O34: the accesses by their rules inside and outside `RAM`, and the unwritten cell by
`reaches_memRead_other` from its value at construction. -/
theorem ramReadsWhatWasWritten : Obligations.RamReadsWhatWasWritten := by
  refine ⟨fun s a v => ⟨fun h₀ h₁ => ?_, fun hout => ?_⟩, fun c k t a h₀ h₁ hr hstore => ?_⟩
  · have ha : inBounds a s.cfg.ramLen = true := inBounds_iff.2 ⟨h₀, h₁⟩
    exact ⟨⟨_, memRead_inside ha⟩, _, memWrite_inside ha v, rfl, memRead_setRam_write_same s v ha,
      fun b => memRead_setRam_write_other s v ha⟩
  · have ha : inBounds a s.cfg.ramLen = false := inBounds_eq_false_iff.2 hout
    exact ⟨memRead_outside ha, memWrite_outside ha v⟩
  · rw [reaches_memRead_other hr hstore, memRead_ofConfig h₀ h₁]

/-- Settles O36: no step changes the parameters, on which alone `ProgRead` depends; and the fetch
reads only those and `PC`. -/
theorem fetchIsNeverAffectedByAStore : Obligations.FetchIsNeverAffectedByAStore :=
  ⟨fun _ _ _ h => ⟨reaches_cfg h, progRead_congr (reaches_cfg h)⟩, fun _ _ => rfl⟩

/-- Settles O33: the two cases of `progRead_cases`, which the bounds tell apart. -/
theorem progReadIsBoundsChecked : Obligations.ProgReadIsBoundsChecked := by
  intro s i
  rcases progRead_cases s i with ⟨n, v, rfl, hv, hr⟩ | ⟨hout, hr⟩
  · have hn : n < s.cfg.program.length := (List.getElem?_eq_some_iff.1 hv).1
    exact ⟨fun _ _ => ⟨v, hv, hr⟩, fun hout => by omega⟩
  · exact ⟨fun h₀ h₁ => by omega, fun _ => hr⟩

end Sys2Proof.Machine
end

section
/-! PROOFS. The opcode cells that no instruction has (30_encoding.md R66, 43_control.md R128). -/

namespace Sys2Proof.Machine

/-- The handler of an invalid opcode only raises (43_control.md R128). -/
theorem exec_invalid (op : Int) (s : State) :
    exec (.invalid op) s = .next (s.raise (.invalidOpcode op)) := rfl

/-- At an unmapped opcode cell the step only raises: the decoder gives the invalid opcode, and a
handler that raised gets no terminal advance (40_engine.md R87). -/
theorem step_unmapped {s : State} {op : Int} (hop : op < 0 ∨ 12 < op) (hrun : s.halted = false)
    (hcell : progRead s s.pc = .ok op) : step s = .next (s.raise (.invalidOpcode op)) := by
  obtain ⟨rest, hfetch⟩ := fetch_opcode hcell
  have hinstr : fetch s = .instr (.invalid op) rest := hfetch.trans (decode_unmapped hop rest)
  rw [step_instr hrun hinstr, exec_invalid, terminalAdvance_halted (State.raise_halted _ _)]

/-- Settles O30: the handler by `exec_invalid`, the step by `step_unmapped`. -/
theorem unmappedOpcodeHalts : Obligations.UnmappedOpcodeHalts :=
  fun s op => ⟨exec_invalid op s, step_unmapped⟩

end Sys2Proof.Machine
end

section
/-! PROOFS. The opcode fetch (40_engine.md R80): what is fetched inside the program, and outside it. -/

namespace Sys2Proof

/-- Whether or not the operand cell is there, a two-cell instruction is read. -/
theorem withOperand_isInstr (mk : Operand → Instr) (cells : List Int) :
    ∃ o rest, withOperand mk cells = .instr (mk o) rest := by
  cases cells with
  | nil => exact ⟨none, [], rfl⟩
  | cons v rest => exact ⟨some v, rest, rfl⟩

/-- An opcode cell always gives an instruction, one that has this opcode (30_encoding.md R64, R66). -/
theorem decode_cons_opcode (op : Int) (cells : List Int) :
    ∃ i rest, decode (op :: cells) = .instr i rest ∧ i.opcode = op := by
  have htwo : ∀ mk : Operand → Instr, (∀ o, (mk o).opcode = op) →
      ∃ i rest, withOperand mk cells = .instr i rest ∧ i.opcode = op := by
    intro mk hmk
    obtain ⟨o, rest, h⟩ := withOperand_isInstr mk cells
    exact ⟨mk o, rest, h, hmk o⟩
  rcases opcode_cases op with rfl | rfl | rfl | rfl | rfl | rfl | rfl | rfl | rfl | rfl | rfl |
    rfl | rfl | hop
  · exact ⟨.brk, cells, rfl, rfl⟩
  · exact htwo .lda fun _ => rfl
  · exact htwo .adc fun _ => rfl
  · exact htwo .sta fun _ => rfl
  · exact htwo .ldx fun _ => rfl
  · exact ⟨.inx, cells, rfl, rfl⟩
  · exact htwo .cmy fun _ => rfl
  · exact htwo .bne fun _ => rfl
  · exact ⟨.stax, cells, rfl, rfl⟩
  · exact ⟨.dey, cells, rfl, rfl⟩
  · exact htwo .ldy fun _ => rfl
  · exact htwo .jsr fun _ => rfl
  · exact ⟨.rts, cells, rfl, rfl⟩
  · exact ⟨.invalid op, cells, decode_unmapped hop cells, rfl⟩

end Sys2Proof

namespace Sys2Proof.Machine

/-- An opcode fetch that raises finds no instruction. -/
theorem fetch_noOpcodeCell {s : State} {r : HaltReason} (h : progRead s s.pc = .error r) :
    fetch s = .noOpcodeCell := by
  rcases fetchCells_cases s with ⟨_, _, _, ho, _, _⟩ | ⟨_, ho, _, _, _⟩ | ⟨_, _, hc⟩
  · rw [h] at ho; cases ho
  · rw [h] at ho; cases ho
  · rw [fetch, hc, decode_nil]

/-- Settles O7: `progReadIsBoundsChecked` says what the read at `PC` gives; where it raises,
`fetch_noOpcodeCell` halts the step, and where it gives a cell, `decode_cons_opcode` is about it. -/
theorem opcodeFetchReadsTheCellAtPcOrHalts : Obligations.OpcodeFetchReadsTheCellAtPcOrHalts := by
  intro s hrun
  obtain ⟨hinside, houtside⟩ := progReadIsBoundsChecked s s.pc
  refine ⟨fun hout => step_noOpcodeCell hrun (fetch_noOpcodeCell (houtside hout)), fun h₀ h₁ => ?_⟩
  obtain ⟨op, hcell, hread⟩ := hinside h₀ h₁
  obtain ⟨cells, hfetch⟩ := fetch_opcode hread
  obtain ⟨i, rest, hdecode, hop⟩ := decode_cons_opcode op cells
  have hinstr : fetch s = .instr i rest := hfetch.trans hdecode
  exact ⟨i, rest, hinstr, hop.symm ▸ hcell, step_instr hrun hinstr⟩

end Sys2Proof.Machine
end

section
/-! PROOFS. `STAX` (41_load_store.md R104), inside and outside `RAM`. -/

namespace Sys2Proof.Machine

/-- At an opcode cell 8 the step runs the handler of `STAX`, whatever cells follow. -/
theorem step_stax {s : State} (hrun : s.halted = false) (hcell : progRead s s.pc = .ok 8) :
    step s = terminalAdvance (exec .stax s) := by
  obtain ⟨rest, hfetch⟩ := fetch_opcode hcell
  exact step_instr hrun (hfetch.trans (decode_8 rest))

theorem exec_stax_inside {s : State} (hx : inBounds s.x s.cfg.ramLen = true) :
    exec .stax s = .next (s.setRam (s.ram.write s.x.toNat s.a)) := by
  rw [exec, execStax, indirectX, memWrite_inside hx, attempt_ok]

theorem exec_stax_outside {s : State} (hx : inBounds s.x s.cfg.ramLen = false) :
    exec .stax s = .next (s.raise (.addressOutOfBounds s.x)) := by
  rw [exec, execStax, indirectX, memWrite_outside hx, attempt_error]

/-- Settles O15: inside `RAM` the handler is one write, after which the step advances `PC`; outside
it only raises, and a handler that raised gets no terminal advance. -/
theorem staxStoresTheAccumulatorAtX : Obligations.StaxStoresTheAccumulatorAtX := by
  refine fun s => ⟨⟨rfl, decode_8 []⟩, fun h₀ h₁ => ?_, fun hout hrun hcell => ?_⟩
  · have hx : inBounds s.x s.cfg.ramLen = true := inBounds_iff.2 ⟨h₀, h₁⟩
    have hexec := exec_stax_inside hx
    refine ⟨_, hexec, rfl, memRead_setRam_write_same s s.a hx,
      fun b => exec_memRead_other hexec, fun hrun hcell => ?_⟩
    rw [step_stax hrun hcell, hexec]
    exact terminalAdvance_running hrun
  · have hx : inBounds s.x s.cfg.ramLen = false := inBounds_eq_false_iff.2 hout
    rw [step_stax hrun hcell, exec_stax_outside hx]
    exact terminalAdvance_halted (State.raise_halted _ _)

end Sys2Proof.Machine
end

section
/-! PROOFS. `INX` and `DEY` (42_arith_compare.md R111, R112): one-cell instructions that cannot fault. -/

namespace Sys2Proof.Machine

/-- At the opcode cell of a one-cell instruction whose handler does not halt, the step is the handler
and then the terminal advance, whatever cells follow (40_engine.md R85, R87). -/
theorem step_oneCell_running {s t : State} {op : Int} {i : Instr}
    (hdecode : ∀ rest, decode (op :: rest) = .instr i rest) (hrun : s.halted = false)
    (hcell : progRead s s.pc = .ok op) (hexec : exec i s = .next t) (ht : t.halted = false) :
    step s = .next (t.advancePc 1) := by
  obtain ⟨rest, hfetch⟩ := fetch_opcode hcell
  rw [step_instr hrun (hfetch.trans (hdecode rest)), hexec, terminalAdvance_running ht]

theorem exec_inx (s : State) :
    exec .inx s = .next (s.setX (normCell s.cfg.cellW (s.x + 1))) := rfl

theorem exec_dey (s : State) :
    exec .dey s = .next (s.setY (normCell s.cfg.cellW (s.y - 1))) := rfl

/-- Settles O18: the handler by `exec_inx`, the step by `step_oneCell_running`; without a width
`normCell` is the identity. -/
theorem inxIncrementsX : Obligations.InxIncrementsX := by
  refine fun s => ⟨⟨rfl, decode_5 []⟩, exec_inx s, fun hrun hcell => ?_⟩
  have hstep : step s = .next ((s.setX (normCell s.cfg.cellW (s.x + 1))).advancePc 1) :=
    step_oneCell_running decode_5 hrun hcell (exec_inx s) hrun
  refine ⟨hstep, fun hw => ?_⟩
  rw [hstep, hw, normCell_unbounded]
  rfl

/-- Settles O19: the handler by `exec_dey`, the step by `step_oneCell_running`; without a width
`normCell` is the identity. -/
theorem deyDecrementsY : Obligations.DeyDecrementsY := by
  refine fun s => ⟨⟨rfl, decode_9 []⟩, exec_dey s, fun hrun hcell => ?_⟩
  have hstep : step s = .next ((s.setY (normCell s.cfg.cellW (s.y - 1))).advancePc 1) :=
    step_oneCell_running decode_9 hrun hcell (exec_dey s) hrun
  refine ⟨hstep, fun hw => ?_⟩
  rw [hstep, hw, normCell_unbounded]
  rfl

end Sys2Proof.Machine
end

section
/-! PROOFS. `BRK` (43_control.md R120). -/

namespace Sys2Proof.Machine

theorem exec_brk (s : State) : exec .brk s = .next (s.raise .brk) := rfl

/-- At an opcode cell 0 the step only raises: a handler that raised gets no terminal advance
(40_engine.md R87), so `PC` stays on the `BRK`. -/
theorem step_brk {s : State} (hrun : s.halted = false) (hcell : progRead s s.pc = .ok 0) :
    step s = .next (s.raise .brk) := by
  obtain ⟨rest, hfetch⟩ := fetch_opcode hcell
  rw [step_instr hrun (hfetch.trans (decode_0 rest)), exec_brk,
    terminalAdvance_halted (State.raise_halted _ _)]

/-- The boolean of a step that answers `t`: continue, unless the halt latch of `t` is set
(40_engine.md R83). -/
theorem stepBool_of_step {s t : State} (h : step s = .next t) : stepBool s = !t.halted := by
  rw [stepBool, h]

/-- Settles O22: the handler by `exec_brk`, the step by `step_brk`, and its boolean from the latch
that `raise` sets. -/
theorem brkHaltsWithBreak : Obligations.BrkHaltsWithBreak := by
  refine fun s => ⟨⟨rfl, decode_0 []⟩, exec_brk s, fun hrun hcell => ?_⟩
  have hstep : step s = .next (s.raise .brk) := step_brk hrun hcell
  exact ⟨hstep, stepBool_of_step hstep⟩

end Sys2Proof.Machine
end

section
/-! PROOFS. `BNE` (43_control.md R121, R122): what it changes, with and without its operand cell. -/

namespace Sys2Proof

theorem eq_bne_of_mnemonic {i : Instr} (h : i.mnemonic = "BNE") : ∃ o, i = .bne o := by
  cases i with
  | bne o => exact ⟨o, rfl⟩
  | _ => simp [Instr.mnemonic] at h

end Sys2Proof

namespace Sys2Proof.Machine

/-- Without its operand cell, `BNE` raises after the internal advance (40_engine.md R84). -/
theorem exec_bne_none (s : State) : exec (.bne none) s =
    .next ((s.advancePc 1).raise (.programOutOfBounds (s.pc + 1))) := rfl

/-- With its operand cell, `BNE` sets `PC`, taken or not. -/
theorem exec_bne_some (k : Int) (s : State) : exec (.bne (some k)) s =
    .next (s.setPc (if flagTest s.p .z then s.pc + 1 else s.pc + 1 + k)) := by
  rw [exec, execBne, fetchOperand_some, State.advancePc_p]
  cases flagTest s.p .z <;> rfl

theorem step_bne_none {s : State} {rest : List Int} (hrun : s.halted = false)
    (hfetch : fetch s = .instr (.bne none) rest) :
    step s = .next ((s.advancePc 1).raise (.programOutOfBounds (s.pc + 1))) := by
  rw [step_instr hrun hfetch, exec_bne_none, terminalAdvance_halted (State.raise_halted _ _)]

theorem step_bne_some {s : State} {k : Int} {rest : List Int} (hrun : s.halted = false)
    (hfetch : fetch s = .instr (.bne (some k)) rest) :
    step s =
      .next ((s.setPc (if flagTest s.p .z then s.pc + 1 else s.pc + 1 + k)).advancePc 1) := by
  rw [step_instr hrun hfetch, exec_bne_some]
  exact terminalAdvance_running hrun

/-- Settles O24, by whether the operand cell is there: without it the step sets `PC` and the latch
(`step_bne_none`), with it `PC` alone (`step_bne_some`). -/
theorem bneChangesOnlyPc : Obligations.BneChangesOnlyPc := by
  intro s t i rest hrun hfetch hbne hstep
  obtain ⟨o, rfl⟩ := eq_bne_of_mnemonic hbne
  cases o with
  | none =>
    obtain rfl : _ = t := Host.Outcome.next.inj ((step_bne_none hrun hfetch).symm.trans hstep)
    exact ⟨rfl, rfl, rfl, rfl, rfl, rfl, fun h => nomatch h⟩
  | some k =>
    obtain rfl : _ = t := Host.Outcome.next.inj ((step_bne_some hrun hfetch).symm.trans hstep)
    exact ⟨rfl, rfl, rfl, rfl, rfl, rfl, fun _ => rfl⟩

end Sys2Proof.Machine
end

section
/-! PROOFS. The decoder and the encoder are inverse (30_encoding.md sections 1 to 5). -/

namespace Sys2Proof

/-- Decode after encode, with every cell: the operand, if there is one, is read back and what follows
is left over. -/
theorem decode_encode_append {i : Instr} (hwf : i.wf = true) (hcomplete : i.complete = true)
    (rest : List Int) : decode (encode i ++ rest) = .instr i rest := by
  cases i with
  | brk | inx | stax | dey | rts => rfl
  | lda o | adc o | sta o | ldx o | cmy o | bne o | ldy o | jsr o =>
    cases o with
    | none => cases hcomplete
    | some v => rfl
  | invalid op => exact decode_unmapped (op := op) (by simpa [Instr.wf] using hwf) rest

/-- Decode after encode at the end of a program that lacks the operand cell. -/
theorem decode_encode_incomplete {i : Instr} (hmissing : i.complete = false) :
    decode (encode i) = .instr i [] := by
  cases i with
  | brk | inx | stax | dey | rts | invalid op => cases hmissing
  | lda o | adc o | sta o | ldx o | cmy o | bne o | ldy o | jsr o =>
    cases o with
    | none => rfl
    | some v => cases hmissing

/-- Settles O2: the two lemmas above, by whether the instruction has its operand cell. -/
theorem decodeOfEncodeIsTheInstruction : Obligations.DecodeOfEncodeIsTheInstruction :=
  fun _ rest hwf => ⟨fun hc => decode_encode_append hwf hc rest, decode_encode_incomplete⟩

/-- `i` and `rest` account for `cells`: `i` is well formed, its cells and then `rest` are `cells`, and
it lacks its operand cell only at their end. -/
def ReadFrom (cells : List Int) (i : Instr) (rest : List Int) : Prop :=
  i.wf = true ∧ encode i ++ rest = cells ∧ (i.complete = false → rest = [])

/-- A one-cell instruction accounts for its opcode cell. -/
theorem readFrom_oneCell {i j : Instr} {op : Int} {cells rest : List Int}
    (hj : j.wf = true ∧ j.operand? = none ∧ j.opcode = op)
    (h : DecodeResult.instr j cells = .instr i rest) : ReadFrom (op :: cells) i rest := by
  obtain ⟨hwf, hoperand, rfl⟩ := hj
  cases h
  exact ⟨hwf, by simp [encode, hoperand], fun hc => by simp [Instr.complete, hoperand] at hc⟩

/-- A two-cell instruction accounts for its opcode cell and for the next cell, if there is one. -/
theorem readFrom_withOperand {mk : Operand → Instr} {i : Instr} {op : Int} {cells rest : List Int}
    (hmk : ∀ o, (mk o).wf = true ∧ (mk o).operand? = some o ∧ (mk o).opcode = op)
    (h : withOperand mk cells = .instr i rest) : ReadFrom (op :: cells) i rest := by
  cases cells with
  | nil =>
    obtain ⟨hwf, hoperand, hop⟩ := hmk none
    cases h
    exact ⟨hwf, by simp [encode, hoperand, hop], fun _ => rfl⟩
  | cons v rest' =>
    obtain ⟨hwf, hoperand, hop⟩ := hmk (some v)
    cases h
    exact ⟨hwf, by simp [encode, hoperand, hop], fun hc => by simp [Instr.complete, hoperand] at hc⟩

/-- Encode after decode. -/
theorem readFrom_of_decode {cells rest : List Int} {i : Instr} (h : decode cells = .instr i rest) :
    ReadFrom cells i rest := by
  cases cells with
  | nil => cases h
  | cons op cells =>
    rcases opcode_cases op with rfl | rfl | rfl | rfl | rfl | rfl | rfl | rfl | rfl | rfl | rfl |
      rfl | rfl | hop
    · exact readFrom_oneCell (j := .brk) ⟨rfl, rfl, rfl⟩ h
    · exact readFrom_withOperand (mk := .lda) (fun _ => ⟨rfl, rfl, rfl⟩) h
    · exact readFrom_withOperand (mk := .adc) (fun _ => ⟨rfl, rfl, rfl⟩) h
    · exact readFrom_withOperand (mk := .sta) (fun _ => ⟨rfl, rfl, rfl⟩) h
    · exact readFrom_withOperand (mk := .ldx) (fun _ => ⟨rfl, rfl, rfl⟩) h
    · exact readFrom_oneCell (j := .inx) ⟨rfl, rfl, rfl⟩ h
    · exact readFrom_withOperand (mk := .cmy) (fun _ => ⟨rfl, rfl, rfl⟩) h
    · exact readFrom_withOperand (mk := .bne) (fun _ => ⟨rfl, rfl, rfl⟩) h
    · exact readFrom_oneCell (j := .stax) ⟨rfl, rfl, rfl⟩ h
    · exact readFrom_oneCell (j := .dey) ⟨rfl, rfl, rfl⟩ h
    · exact readFrom_withOperand (mk := .ldy) (fun _ => ⟨rfl, rfl, rfl⟩) h
    · exact readFrom_withOperand (mk := .jsr) (fun _ => ⟨rfl, rfl, rfl⟩) h
    · exact readFrom_oneCell (j := .rts) ⟨rfl, rfl, rfl⟩ h
    · have hwf : (Instr.invalid op).wf = true := by simpa [Instr.wf] using hop
      exact readFrom_oneCell ⟨hwf, rfl, rfl⟩ (decode_unmapped hop cells ▸ h)

/-- Settles O3: `readFrom_of_decode`. -/
theorem encodeOfDecodeIsTheCells : Obligations.EncodeOfDecodeIsTheCells :=
  fun _ _ _ => readFrom_of_decode

/-- Settles O1: each word by the decoder's equation for its opcode cell. -/
theorem writtenOutWordsDecode : Obligations.WrittenOutWordsDecode :=
  ⟨decode_1 _, decode_3 _, decode_8 _, decode_2 _, decode_6 _, decode_7 _, decode_11 _, decode_12 _,
    decode_unmapped (by decide) _, decode_unmapped (by decide) _, decode_unmapped (by decide) _⟩

end Sys2Proof
end

section
/-! PROOFS. The rows of spec/opcode_table.json against the decoder (30_encoding.md section 6). -/

namespace Sys2Proof

/-- The code of an instruction in the opcode table: none for the invalid row. -/
def Instr.tableCode : Instr → Option Int
  | .invalid _ => none
  | i => some i.opcode

/-- The row of an instruction in the opcode table. -/
def Instr.tableRow (i : Instr) : OpcodeRow := ⟨i.mnemonic, i.tableCode, i.lengthCells⟩

theorem tableRow_mem (i : Instr) : i.tableRow ∈ opcodeTable := by
  cases i <;> simp [opcodeTable, Instr.tableRow, Instr.tableCode, Instr.mnemonic, Instr.opcode,
    Instr.lengthCells, Instr.operand?]

/-- No two rows of the table share a mnemonic, and no two share a code. -/
theorem opcodeTable_unique : ∀ r ∈ opcodeTable, ∀ q ∈ opcodeTable,
    (r.mnemonic = q.mnemonic → r = q) ∧ (r.code = q.code → r = q) := by decide

theorem mnemonic_eq_iff {r : OpcodeRow} (hr : r ∈ opcodeTable) (i : Instr) :
    r.mnemonic = i.mnemonic ↔ r = i.tableRow :=
  ⟨(opcodeTable_unique r hr _ (tableRow_mem i)).1, fun e => congrArg OpcodeRow.mnemonic e⟩

theorem code_eq_iff {r : OpcodeRow} (hr : r ∈ opcodeTable) (i : Instr) :
    r.code = i.tableCode ↔ r = i.tableRow :=
  ⟨(opcodeTable_unique r hr _ (tableRow_mem i)).2, fun e => congrArg OpcodeRow.code e⟩

/-- The codes of the table are 0 to 12. -/
theorem opcodeTable_any_code (op : Int) :
    opcodeTable.any (fun r => r.code == some op) = true ↔ 0 ≤ op ∧ op ≤ 12 := by
  simp only [opcodeTable, List.any_append, List.any_cons, List.any_nil, Bool.or_eq_true, beq_iff_eq,
    Option.some.injEq, reduceCtorEq, Bool.false_eq_true, or_false]
  omega

/-- What a row matches: its code, or for the invalid row every cell that is no code. -/
theorem matchesCell_iff (r : OpcodeRow) (cw : CellWidth) (op : Int) :
    r.matchesCell cw op = true ↔ r.code = some (Machine.cellPattern cw op) ∨
      r.code = none ∧ (Machine.cellPattern cw op < 0 ∨ 12 < Machine.cellPattern cw op) := by
  unfold OpcodeRow.matchesCell
  cases r.code with
  | some c => simp [eq_comm (a := c)]
  | none =>
    rw [Bool.not_eq_true', Bool.eq_false_iff, Ne, opcodeTable_any_code]
    simp only [reduceCtorEq, false_or, true_and]
    omega

/-- The one row that matches the opcode cell of a well-formed instruction has its code. -/
theorem matchesCell_opcode_iff {r : OpcodeRow} (hr : r ∈ opcodeTable) {i : Instr}
    (hwf : i.wf = true) : r.matchesCell .unbounded i.opcode = true ↔ r.code = i.tableCode := by
  rw [matchesCell_iff, Machine.cellPattern_unbounded]
  cases i with
  | invalid op =>
    have hop : op < 0 ∨ 12 < op := by simpa [Instr.wf] using hwf
    have hne : r.code ≠ some op := fun e => by
      have := (opcodeTable_any_code op).1 (List.any_eq_true.2 ⟨r, hr, by simp [e]⟩)
      omega
    simp [Instr.opcode, Instr.tableCode, hop, hne]
  | _ => simp [Instr.opcode, Instr.tableCode]

/-- The instruction decoded from an opcode cell is well formed and has that opcode. -/
theorem wf_and_opcode_of_decode {op : Int} {cells rest : List Int} {i : Instr}
    (h : decode (op :: cells) = .instr i rest) : i.wf = true ∧ i.opcode = op := by
  obtain ⟨j, rest', hj, hop⟩ := decode_cons_opcode op cells
  rw [h] at hj
  cases hj
  exact ⟨(readFrom_of_decode h).1, hop⟩

/-- Without a width exactly the row of the decoded instruction matches the opcode cell. -/
theorem matchesCell_unbounded_iff_mnemonic {op : Int} {cells rest : List Int} {i : Instr}
    (h : decode (op :: cells) = .instr i rest) {r : OpcodeRow} (hr : r ∈ opcodeTable) :
    r.matchesCell .unbounded op = true ↔ r.mnemonic = i.mnemonic := by
  obtain ⟨hwf, rfl⟩ := wf_and_opcode_of_decode h
  rw [matchesCell_opcode_iff hr hwf, code_eq_iff hr, mnemonic_eq_iff hr]

/-- Settles O4: the decoded instruction's row stands in the table, is the one that matches, and has
its length. -/
theorem opcodeTableRowMatchesDecodedInstruction :
    Obligations.OpcodeTableRowMatchesDecodedInstruction := by
  intro op cells rest i h
  refine ⟨⟨i.tableRow, tableRow_mem i, rfl⟩, fun r hr => ⟨?_, fun hm => ?_⟩⟩
  · exact matchesCell_unbounded_iff_mnemonic h hr
  · rw [(mnemonic_eq_iff hr i).1 hm]
    rfl

/-- Whether a row matches depends on the pattern alone. -/
theorem matchesCell_cellPattern (r : OpcodeRow) (cw : CellWidth) (op : Int) :
    r.matchesCell cw op = r.matchesCell .unbounded (Machine.cellPattern cw op) := rfl

/-- In a width of 5 bits or more the pattern of a negative cell is no code. -/
theorem twelve_lt_cellPattern {w : Nat} {op : Int} (hw : 5 ≤ w)
    (hfits : Machine.fits (.bits w) op = true) (hneg : op < 0) :
    12 < Machine.cellPattern (.bits w) op := by
  obtain ⟨n, rfl⟩ : ∃ n, w = n + 5 := ⟨w - 5, by omega⟩
  rw [Machine.cellPattern_bits hfits, if_neg (by omega)]
  simp only [Machine.fits, Bool.and_eq_true, decide_eq_true_eq] at hfits
  have hn : (1 : Int) ≤ 2 ^ n := one_le_pow₀ (by norm_num)
  have hhalf : (2 : Int) ^ (n + 5 - 1) = 2 ^ n * 16 := pow_add 2 n 4
  have hfull : (2 : Int) ^ (n + 5) = 2 ^ n * 32 := pow_add 2 n 5
  omega

/-- Settles O53. A cell that is not negative is its own pattern; a negative one of 5 bits or more has
a pattern that is as invalid as the cell itself; in fewer bits the rows read the pattern. -/
theorem finiteWidthRowsMatchTheDecodedInstruction :
    Obligations.FiniteWidthRowsMatchTheDecodedInstruction := by
  intro w op cells rest i _ hfits h
  have hpattern := Machine.cellPattern_bits hfits
  refine ⟨fun hmatch r hr => ?_, fun _ hneg => ?_⟩
  · rw [matchesCell_cellPattern]
    by_cases hop : 0 ≤ op
    · rw [hpattern, if_pos hop]
      exact matchesCell_unbounded_iff_mnemonic h hr
    · have hlarge := twelve_lt_cellPattern (hmatch.resolve_right hop) hfits (by omega)
      rw [decode_unmapped (.inl (by omega))] at h
      cases h
      exact matchesCell_unbounded_iff_mnemonic (decode_unmapped (.inr hlarge) []) hr
  · rw [decode_unmapped (.inl hneg)] at h
    cases h
    refine ⟨rfl, fun r _ => ?_⟩
    have hnonneg : 0 ≤ Machine.cellPattern (.bits w) op := Int.emod_nonneg op (by positivity)
    rw [matchesCell_iff]
    rw [hpattern, if_neg (by omega)] at hnonneg ⊢
    simp [not_lt.2 hnonneg]

end Sys2Proof
end

section
/-! PROOFS. The finite width of a cell (00_scope.md R8). -/

namespace Sys2Proof.Machine

theorem fits_bits_iff {w : Nat} {v : Int} :
    fits (.bits w) v = true ↔ -2 ^ (w - 1) ≤ v ∧ v < 2 ^ (w - 1) := by simp [fits]

theorem fits_normCell_bits (w : Nat) (v : Int) : fits (.bits w) (normCell (.bits w) v) = true :=
  fits_bits_iff.2 ⟨BitVec.le_toInt _, BitVec.toInt_lt⟩

/-- Whatever the width, `normCell` gives a value of it. -/
theorem fits_normCell (cw : CellWidth) (v : Int) : fits cw (normCell cw v) = true := by
  cases cw with
  | unbounded => rfl
  | bits w => exact fits_normCell_bits w v

theorem normCell_of_fits {w : Nat} {v : Int} (hw : 0 < w) (h : fits (.bits w) v = true) :
    normCell (.bits w) v = v := by
  obtain ⟨hlo, hhi⟩ := fits_bits_iff.1 h
  exact BitVec.toInt_ofInt_eq_self hw hlo hhi

theorem normCell_bits (w : Nat) (v : Int) : normCell (.bits w) v = v.bmod (2 ^ w) :=
  BitVec.toInt_ofInt v

theorem two_pow_dvd_normCell_sub (w : Nat) (v : Int) : (2 : Int) ^ w ∣ normCell (.bits w) v - v := by
  rw [normCell_bits]
  exact_mod_cast Int.dvd_bmod_sub_self (x := v) (m := 2 ^ w)

theorem normCell_add_mul (w : Nat) (v q : Int) :
    normCell (.bits w) (v + q * 2 ^ w) = normCell (.bits w) v := by
  rw [normCell_bits, normCell_bits]
  exact_mod_cast Int.add_mul_bmod_self_right v q (2 ^ w)

/-- Settles O21. A value of the range is its own `normCell`, and congruent values have the same one,
so it is the only one. -/
theorem normIsTheSignedWrap : Obligations.NormIsTheSignedWrap := by
  intro w v hw
  refine ⟨fits_normCell_bits w v, ?_, fun r hr hcongr => ?_, normCell_of_fits (by omega)⟩
  · obtain ⟨q, hq⟩ := two_pow_dvd_normCell_sub w v
    exact ⟨q, by rw [hq, mul_comm]⟩
  · obtain ⟨q, hq⟩ := hcongr
    calc r = normCell (.bits w) r := (normCell_of_fits (by omega) hr).symm
      _ = normCell (.bits w) (v + q * 2 ^ w) := by rw [← hq, add_sub_cancel]
      _ = normCell (.bits w) v := normCell_add_mul w v q

end Sys2Proof.Machine
end

section
/-! PROOFS. The flag operations and `raw()` (10_state.md R15, R18). -/

namespace Sys2Proof.Machine

/-- A flag as a digit of `raw()`. -/
theorem flagTest_toNat (p : BitVec 8) (f : Flag) :
    (flagTest p f).toNat = p.toNat / 2 ^ flagBit f % 2 := Nat.toNat_testBit _ _

/-- `raw()` is the byte of the eight flags, `C` lowest (R15). -/
theorem flagRaw_toNat (p : BitVec 8) : (flagRaw p).toNat =
    (flagTest p .n).toNat * 128 + (flagTest p .v).toNat * 64 + (flagTest p .b).toNat * 32 +
    (flagTest p .s).toNat * 16 + (flagTest p .d).toNat * 8 + (flagTest p .i).toNat * 4 +
    (flagTest p .z).toNat * 2 + (flagTest p .c).toNat := by
  have hp : p.toNat < 256 := p.isLt
  simp only [flagTest_toNat, flagBit, flagRaw]
  omega

/-- Settles O39: `set` and `clear` by their laws, `raw` by its digits. -/
theorem flagOperationsActOnOneBit : Obligations.FlagOperationsActOnOneBit := by
  intro p f g
  refine ⟨?_, ?_, flagRaw_toNat p⟩
  · rw [flagTest_flagSet]
    by_cases h : g = f <;> simp [h]
  · rw [flagTest_flagClear]
    by_cases h : g = f <;> simp [h]

end Sys2Proof.Machine
end

section
/-! PROOFS. What a handler writes, field by field (the table of 10_state.md section 1). -/

namespace Sys2Proof.Machine

/-- What the handler of `i` can have written between `s` and `t`: each field is as before, or was
written by an instruction that the table lists for it, with the value given here. -/
structure HandlerEffects (i : Instr) (s t : State) : Prop where
  a : t.a = s.a ∨ (∃ v, i = .lda (some v) ∧ t.a = v) ∨
    ∃ v, i = .adc (some v) ∧ t.a = normCell s.cfg.cellW (s.a + v)
  x : t.x = s.x ∨ (∃ v, i = .ldx (some v) ∧ t.x = v) ∨
    (i = .inx ∧ t.x = normCell s.cfg.cellW (s.x + 1))
  y : t.y = s.y ∨ (∃ b, i = .ldy (some b) ∧ t.y = s.ram.read b.toNat) ∨
    (i = .dey ∧ t.y = normCell s.cfg.cellW (s.y - 1))
  pc : t.pc = s.pc ∨ i.operand?.isSome = true ∨ i = .rts
  sp : t.sp = s.sp ∨ (∃ o, i = .jsr o ∧ inBounds s.sp s.cfg.ramLen = true ∧ t.sp = s.sp - 1) ∨
    (i = .rts ∧ t.sp = s.sp + 1 ∧
      (t.halted = true ∨ inBounds (s.sp + 1 + s.cfg.rtsReadOffset.val) s.cfg.ramLen = true))
  ram : t.ram = s.ram ∨ ∃ b v, storeAddress i s = some b ∧ inBounds b s.cfg.ramLen = true ∧
    (v = s.a ∨ v = normCell s.cfg.cellW (s.pc + 1)) ∧ t.ram = s.ram.write b.toNat v
  latch : (t.halted = s.halted ∧ t.haltReason = s.haltReason) ∨
    (i ≠ .inx ∧ i ≠ .dey ∧ t.halted = true ∧ ∃ r, t.haltReason = some r)

/-- The table holds of every handler: each case of `exec_cases` gives the state after it, in which every
field that the case does not write is that of `s`. -/
theorem exec_effects {i : Instr} {s t : State} (h : exec i s = .next t) : HandlerEffects i s t := by
  rcases exec_cases h with ⟨rfl, rfl⟩ | ⟨_, rfl, rfl⟩ | ⟨hi, rfl⟩ | ⟨_, rfl, rfl⟩ | ⟨_, rfl, rfl⟩ |
    ⟨_, rfl, rfl⟩ | ⟨_, rfl, rfl⟩ | ⟨_, rfl, rfl⟩ | ⟨rfl, rfl⟩ | ⟨rfl, rfl⟩ | ⟨_, rfl, hb, rfl⟩ |
    ⟨_, rfl, -, rfl⟩ | ⟨_, rfl, hb, rfl⟩ | ⟨_, rfl, -, rfl⟩ | ⟨rfl, hb, rfl⟩ | ⟨rfl, -, rfl⟩ |
    ⟨_, rfl, -, rfl⟩ | ⟨_, rfl, hb, rfl⟩ | ⟨rfl, hb, rfl⟩ | ⟨rfl, hb, rfl⟩ | ⟨rfl, -, rfl⟩
  case inr.inr.inl =>
    have hoperand : i.operand?.isSome = true ∧ i ≠ .inx ∧ i ≠ .dey := by
      revert i
      simp [Instr.operand?]
    constructor <;> simp [hoperand]
  all_goals constructor <;> simp [Instr.operand?, storeAddress, indirectX, pushAddress, *]

end Sys2Proof.Machine
end

section
/-! PROOFS. Each piece of state is written only by the instructions listed for it. -/

namespace Sys2Proof.Machine

/-- Settles O35: `exec_memRead_other`. -/
theorem onlyTheStoreAddressChanges : Obligations.OnlyTheStoreAddressChanges :=
  fun _ _ _ h _ => exec_memRead_other h

/-- The instructions with a store address. -/
theorem storeAddress_eq_some {i : Instr} {s : State} {b : Int} (h : storeAddress i s = some b) :
    i = .sta (some b) ∨ (i = .stax ∧ s.x = b) ∨ ∃ o, i = .jsr o ∧ s.sp = b := by
  cases i with
  | sta o => exact .inl (congrArg Instr.sta h)
  | stax => exact .inr (.inl ⟨rfl, Option.some.inj h⟩)
  | jsr o => exact .inr (.inr ⟨o, rfl, Option.some.inj h⟩)
  | _ => cases h

/-- Settles O37: the table of `HandlerEffects`, the flags by `exec_p`, the parameters by `exec_cfg`. -/
theorem onlyTheListedInstructionsWriteEachRegister :
    Obligations.OnlyTheListedInstructionsWriteEachRegister := by
  intro i s t h
  have e := exec_effects h
  refine ⟨fun hne => ?_, fun hne => ?_, fun hne => ?_, fun hne => ?_, fun hne => ?_, fun hne => ?_,
    e.pc.resolve_left, fun hne => ?_, exec_cfg h⟩
  · rcases e.a.resolve_left hne with ⟨_, rfl, -⟩ | ⟨_, rfl, -⟩ <;> simp [Instr.mnemonic]
  · rcases e.x.resolve_left hne with ⟨_, rfl, -⟩ | ⟨rfl, -⟩ <;> simp [Instr.mnemonic]
  · rcases e.y.resolve_left hne with ⟨_, rfl, -⟩ | ⟨rfl, -⟩ <;> simp [Instr.mnemonic]
  · rw [exec_p h] at hne
    obtain ⟨v, rfl⟩ := (flagsAfterExec_eq_or_cmy i s.y s.p).resolve_left hne
    rfl
  · rcases e.sp.resolve_left hne with ⟨_, rfl, -⟩ | ⟨rfl, -⟩ <;> simp [Instr.mnemonic]
  · obtain ⟨b, _, hstore, -⟩ := e.ram.resolve_left hne
    rcases storeAddress_eq_some hstore with rfl | ⟨rfl, -⟩ | ⟨_, rfl, -⟩ <;> simp [Instr.mnemonic]
  · rcases e.latch with ⟨hh, hr⟩ | ⟨hinx, hdey, hh, r, hr⟩
    · exact hne.elim (absurd hh) (absurd hr)
    · exact ⟨hinx, hdey, hh, by simp [hr]⟩

end Sys2Proof.Machine
end

section
/-! PROOFS. The invariants: every step keeps them, and reset meets them. -/

namespace Sys2Proof.Machine

/-- A property that the halt of a failed fetch, every handler of a running machine, and the terminal
advance keep is kept by every step. -/
theorem step_induction {Q : State → Prop}
    (hfetch : ∀ s r, Q s → s.halted = false → Q (s.raise r))
    (hexec : ∀ s i rest u, Q s → s.halted = false → fetch s = .instr i rest → exec i s = .next u → Q u)
    (hadvance : ∀ u, Q u → Q (u.advancePc 1)) {s t : State} (hs : Q s) (h : step s = .next t) :
    Q t := by
  rcases step_cases h with ⟨-, rfl⟩ | ⟨hrun, -, rfl⟩ | ⟨hrun, i, rest, u, hf, he, rfl⟩
  · exact hs
  · exact hfetch s _ hs hrun
  · have hu : Q u := hexec s i rest u hs hrun hf he
    split
    · exact hu
    · exact hadvance u hu

/-- Settles O43: a handler writes `RAM` only inside its bounds, and such a write keeps the form. -/
theorem stepKeepsRamCanonical : Obligations.StepKeepsRamCanonical := by
  intro s t hs h
  refine step_induction (fun _ _ hs _ => hs) (fun s i rest u hs _ _ he => ?_) (fun _ hu => hu) hs h
  unfold RamCanonical at hs ⊢
  rw [exec_cfg he]
  rcases (exec_effects he).ram with hram | ⟨b, v, -, hb, -, hram⟩
  · rw [hram]
    exact hs
  · have hlt : b.toNat < s.cfg.ramLen := by
      have := inBounds_iff.1 hb
      omega
    rw [hram]
    exact Memory.wf_write hs hlt v

/-- A handler of a running machine keeps `SP` in its range: `JSR` decrements only inside `RAM`, and
`RTS`, which increments always, halts where the cell it would pop is outside `RAM`. -/
theorem exec_spWithin {i : Instr} {s u : State} (hs : SpWithin s) (hrun : s.halted = false)
    (h : exec i s = .next u) : SpWithin u := by
  obtain ⟨hlo, -, hhi⟩ := hs
  have hlt := hhi hrun
  unfold SpWithin
  rw [exec_cfg h]
  rcases (exec_effects h).sp with hsp | ⟨o, -, hb, hsp⟩ | ⟨-, hsp, hpop⟩
  · rw [hsp]
    exact ⟨hlo, hlt.le, fun _ => hlt⟩
  · have hb' := inBounds_iff.1 hb
    exact ⟨by omega, by omega, fun _ => by omega⟩
  · refine ⟨by omega, by omega, fun hu => ?_⟩
    have hb' := inBounds_iff.1 (hpop.resolve_left (by simp [hu]))
    omega

/-- Settles O44: `exec_spWithin`; neither a failed fetch nor the terminal advance touches `SP`. -/
theorem stepKeepsStackPointerWithin : Obligations.StepKeepsStackPointerWithin := by
  intro s t hs h
  refine step_induction (fun s r hs _ => ?_) (fun _ _ _ _ hs hrun _ => exec_spWithin hs hrun)
    (fun _ hu => hu) hs h
  obtain ⟨hlo, hhi, -⟩ := hs
  exact ⟨hlo, hhi, nofun⟩

/-- Flags of which at most `Z` is set are one of two bytes: the digits of `raw()` but that of `Z`
are 0. -/
theorem flagRaw_of_onlyZeroFlag {s : State} (h : OnlyZeroFlag s) :
    flagRaw s.p = 0#8 ∨ flagRaw s.p = 2#8 := by
  have hraw := flagRaw_toNat s.p
  rw [h .n nofun, h .v nofun, h .b nofun, h .s nofun, h .d nofun, h .i nofun, h .c nofun] at hraw
  cases hz : flagTest s.p .z <;> rw [hz] at hraw
  · exact .inl (BitVec.eq_of_toNat_eq hraw)
  · exact .inr (BitVec.eq_of_toNat_eq hraw)

/-- Settles O46: a handler leaves every flag but `Z` as it was. -/
theorem stepKeepsOtherFlagsClear : Obligations.StepKeepsOtherFlagsClear := by
  intro s t hs h
  have ht : OnlyZeroFlag t := by
    refine step_induction (fun _ _ hs _ => hs) (fun s i rest u hs _ _ he f hf => ?_)
      (fun _ hu => hu) hs h
    rw [exec_p he, flagTest_flagsAfterExec_other i s.y s.p hf]
    exact hs f hf
  exact ⟨ht, flagRaw_of_onlyZeroFlag ht⟩

/-- The operand of a fetched instruction is a cell of the program. -/
theorem operand_mem_program {s : State} {i : Instr} {rest : List Int} {v : Int}
    (hf : fetch s = .instr i rest) (hv : i.operand? = some (some v)) : v ∈ s.cfg.program := by
  obtain ⟨-, hcells, -⟩ := readFrom_of_decode hf
  have hmem : v ∈ fetchCells s := by
    rw [← hcells, encode, hv]
    simp
  unfold fetchCells at hmem
  split at hmem
  · cases hmem
  · exact List.mem_of_mem_drop hmem

/-- A write of a value of the width keeps the cells of `RAM` in it. -/
theorem fits_read_write {cw : CellWidth} {m : Memory} (hm : ∀ a : Nat, fits cw (m.read a) = true)
    {v : Int} (hv : fits cw v = true) (b a : Nat) : fits cw ((m.write b v).read a) = true := by
  by_cases hab : a = b
  · rw [hab, Memory.read_write_same]
    exact hv
  · rw [Memory.read_write_other m v hab]
    exact hm a

/-- A handler keeps every value in the width: what it writes is an operand, which is a program cell,
a cell of `RAM`, the accumulator, or normalised. -/
theorem exec_valuesFit {i : Instr} {s u : State} {rest : List Int} (hs : ValuesFit s)
    (hf : fetch s = .instr i rest) (h : exec i s = .next u) : ValuesFit u := by
  obtain ⟨ha, hx, hy, hram, hprog⟩ := hs
  have e := exec_effects h
  have hoperand : ∀ v, i.operand? = some (some v) → fits s.cfg.cellW v = true :=
    fun v hv => hprog v (operand_mem_program hf hv)
  have hnorm := fits_normCell s.cfg.cellW
  unfold ValuesFit
  rw [exec_cfg h]
  refine ⟨?_, ?_, ?_, ?_, hprog⟩
  · rcases e.a with ea | ⟨v, rfl, ea⟩ | ⟨v, rfl, ea⟩ <;> rw [ea]
    exacts [ha, hoperand v rfl, hnorm _]
  · rcases e.x with ex | ⟨v, rfl, ex⟩ | ⟨rfl, ex⟩ <;> rw [ex]
    exacts [hx, hoperand v rfl, hnorm _]
  · rcases e.y with ey | ⟨b, rfl, ey⟩ | ⟨rfl, ey⟩ <;> rw [ey]
    exacts [hy, hram _, hnorm _]
  · rcases e.ram with er | ⟨b, v, -, -, hv, er⟩ <;> rw [er]
    · exact hram
    · have hfits : fits s.cfg.cellW v = true := by
        rcases hv with rfl | rfl
        exacts [ha, hnorm _]
      exact fits_read_write hram hfits b.toNat

/-- Settles O47: `exec_valuesFit`; neither a failed fetch nor the terminal advance writes a cell. -/
theorem stepKeepsValuesInTheCellWidth : Obligations.StepKeepsValuesInTheCellWidth :=
  fun _ _ _ hs h => step_induction (fun _ _ hs _ => hs) (fun _ _ _ _ hs _ hf => exec_valuesFit hs hf)
    (fun _ hu => hu) hs h

theorem step_latchConsistent {s t : State} (hs : LatchConsistent s) (h : step s = .next t) :
    LatchConsistent t := by
  refine step_induction (fun _ _ _ _ => rfl) (fun s i rest u hs _ _ he => ?_) (fun _ hu => hu) hs h
  unfold LatchConsistent at hs ⊢
  rcases (exec_effects he).latch with ⟨hh, hr⟩ | ⟨-, -, hh, r, hr⟩
  · rw [hh, hr, hs]
  · rw [hh, hr]
    rfl

/-- Settles O45: a handler sets the latch with a reason or leaves it, and a halted machine stays. -/
theorem stepKeepsHaltLatchConsistent : Obligations.StepKeepsHaltLatchConsistent := by
  intro s t hs h
  refine ⟨step_latchConsistent hs h, fun hhalted => ?_⟩
  obtain rfl : s = t := Host.Outcome.next.inj ((step_halted hhalted).symm.trans h)
  exact ⟨hhalted, rfl⟩

/-- 0 is in the range of every width. -/
theorem fits_zero (cw : CellWidth) : fits cw 0 = true := by
  cases cw with
  | unbounded => rfl
  | bits w => exact fits_bits_iff.2 ⟨by simp, by positivity⟩

/-- Settles O48: every register, flag and cell is 0 at construction, and `SP = RAM_LEN - 1`. -/
theorem resetMeetsTheInvariants : Obligations.ResetMeetsTheInvariants := by
  refine ⟨fun c hc => ?_, by decide, rfl⟩
  simp only [configWf, Bool.and_eq_true, decide_eq_true_eq, List.all_eq_true] at hc
  obtain ⟨⟨hlen, -⟩, hprog⟩ := hc
  have hsp : (State.ofConfig c).sp = (c.ramLen : Int) - 1 := rfl
  have hzero := fits_zero c.cellW
  refine ⟨Memory.wf_nil _, ?_, rfl, fun f _ => flagTest_zero f,
    hzero, hzero, hzero, fun _ => hzero, hprog⟩
  unfold SpWithin
  rw [hsp]
  exact ⟨by omega, by simp [State.ofConfig], fun _ => by simp [State.ofConfig]⟩

end Sys2Proof.Machine
end

section
/-! PROOFS. A step runs the instruction at `PC` (40_engine.md sections 3 to 6). -/

namespace Sys2Proof.Machine

/-- Every handler answers a state. -/
theorem exec_next (i : Instr) (s : State) : ∃ t, exec i s = .next t := by
  cases i <;> exact ⟨_, rfl⟩

/-- Settles O8, by the three things a step can do. -/
theorem everyStepHasANextState : Obligations.EveryStepHasANextState := by
  intro s
  cases hh : s.halted with
  | true => exact ⟨s, step_halted hh⟩
  | false =>
    cases hf : fetch s with
    | noOpcodeCell => exact ⟨_, step_noOpcodeCell hh hf⟩
    | instr i rest =>
      obtain ⟨t, he⟩ := exec_next i s
      exact ⟨_, by rw [step_instr hh hf, he]; rfl⟩

/-- The step at a fetched instruction, by the state its handler answers. -/
theorem step_of_exec {s t : State} {i : Instr} {rest : List Int} (hrun : s.halted = false)
    (hf : fetch s = .instr i rest) (he : exec i s = .next t) :
    step s = .next (if t.halted then t else t.advancePc 1) := by
  rw [step_instr hrun hf, he]
  rfl

/-- Where the program store holds the cells of an instruction at `PC`, it is fetched. -/
theorem fetch_of_encode {s : State} {i : Instr} {rest : List Int} (hpc : 0 ≤ s.pc)
    (hwf : i.wf = true) (hend : i.complete = true ∨ rest = [])
    (hcells : s.cfg.program.drop s.pc.toNat = encode i ++ rest) : fetch s = .instr i rest := by
  rw [fetch, fetchCells, if_neg (not_lt.2 hpc), hcells]
  cases hc : i.complete with
  | true => exact decode_encode_append hwf hc rest
  | false =>
    obtain rfl : rest = [] := hend.resolve_left (by simp [hc])
    rw [List.append_nil]
    exact decode_encode_incomplete hc

/-- Settles O5: `fetch_of_encode`, then `step_of_exec`. -/
theorem stepRunsTheInstructionAtPc : Obligations.StepRunsTheInstructionAtPc :=
  fun _ _ _ _ hrun hpc hwf hend hcells he =>
    step_of_exec hrun (fetch_of_encode hpc hwf hend hcells) he

theorem assemble_append_cons (before after : List Instr) (i : Instr) :
    assemble (before ++ i :: after) = assemble before ++ (encode i ++ assemble after) := by
  simp [assemble]

/-- Settles O6: the cells from the index on are those of the instruction and of what is after it. -/
theorem assembledInstructionRunsAtItsIndex : Obligations.AssembledInstructionRunsAtItsIndex := by
  intro s t before after i hrun hwf hcomplete hprogram hpc he
  have hcells : s.cfg.program.drop s.pc.toNat = encode i ++ assemble after := by
    rw [hprogram, hpc, Int.toNat_natCast, assemble_append_cons]
    exact List.drop_left
  exact stepRunsTheInstructionAtPc s t i _ hrun (by omega) hwf (.inl hcomplete) hcells he

end Sys2Proof.Machine
end

section
/-! PROOFS. Runs: what is reached, and how a run ends (40_engine.md section 7, 60_exceptions.md section 4). -/

namespace Sys2Proof.Machine

/-! ## What is reached -/

theorem reaches_unique {k : Nat} {s t u : State} (ht : Reaches k s t) (hu : Reaches k s u) : t = u :=
  Host.Outcome.next.inj (ht.symm.trans hu)

theorem reaches_one {s t : State} : Reaches 1 s t ↔ step s = .next t := by
  simp [reaches_succ]

/-- A state that a step leaves alone is where every number of steps leads. -/
theorem reaches_self {s : State} (h : step s = .next s) (k : Nat) : Reaches k s s := by
  induction k with
  | zero => exact reaches_zero.2 rfl
  | succ k ih => exact reaches_succ.2 ⟨s, h, ih⟩

theorem reaches_of_halted {k : Nat} {s t : State} (hs : s.halted = true) (h : Reaches k s t) :
    t = s := reaches_unique h (reaches_self (step_halted hs) k)

/-- A run that gets to a running state began in one. -/
theorem running_of_reaches {k : Nat} {s t : State} (h : Reaches k s t) (ht : t.halted = false) :
    s.halted = false := by
  cases hs : s.halted with
  | false => rfl
  | true => rw [← hs, ← reaches_of_halted hs h, ht]

/-- Settles O9: a halted machine is left alone by every step, whose boolean is that of its latch. -/
theorem haltedMachineNeverChanges : Obligations.HaltedMachineNeverChanges := by
  intro s k hs
  refine ⟨reaches_self (step_halted hs) k, ?_⟩
  rw [stepBool_of_step (step_halted hs), hs]
  rfl

/-! ## The outcome of a run -/

/-- A run has at most one halted state. -/
theorem halted_unique {j k : Nat} {s t u : State} (ht : Reaches j s t) (hu : Reaches k s u)
    (hth : t.halted = true) (huh : u.halted = true) : t = u := by
  wlog hjk : j ≤ k generalizing j k t u
  · exact (this hu ht huh hth (by omega)).symm
  · obtain ⟨d, rfl⟩ := Nat.exists_eq_add_of_le hjk
    obtain ⟨v, hv, hvu⟩ := reaches_add.1 hu
    obtain rfl : v = t := reaches_unique hv ht
    exact (reaches_of_halted hth hvu).symm

/-- Settles O42. Either the run halts, and then the consistent latch holds a reason, or it hangs; and
two outcomes would need two halted states, or a halted one in a run that never halts. -/
theorem everyRunHasExactlyOneOutcome : Obligations.EveryRunHasExactlyOneOutcome := by
  intro s hs
  refine ⟨?_, ?_, ?_, ?_⟩
  · by_cases hhalts : ∃ k t, Reaches k s t ∧ t.halted = true
    · obtain ⟨k, t, ht, hth⟩ := hhalts
      have hlatch : t.halted = t.haltReason.isSome :=
        reaches_induction (fun _ _ => step_latchConsistent) hs ht
      obtain ⟨r, hr⟩ := Option.isSome_iff_exists.1 (hlatch.symm.trans hth)
      by_cases hbrk : r = .brk
      · exact .inl ⟨k, t, ht, hth, hbrk ▸ hr⟩
      · exact .inr (.inl ⟨k, t, r, ht, hth, hr, hbrk⟩)
    · refine .inr (.inr fun k t ht => ?_)
      exact Bool.eq_false_iff.2 fun hth => hhalts ⟨k, t, ht, hth⟩
  · rintro ⟨⟨j, t, ht, hth, hbrk⟩, k, u, r, hu, huh, hr, hne⟩
    rw [halted_unique ht hu hth huh, hr] at hbrk
    exact hne (Option.some.inj hbrk)
  · rintro ⟨⟨k, t, ht, hth, -⟩, hhangs⟩
    exact absurd (hhangs k t ht) (by simp [hth])
  · rintro ⟨⟨k, t, r, ht, hth, -⟩, hhangs⟩
    exact absurd (hhangs k t ht) (by simp [hth])

/-! ## The bounded run -/

/-- The first step of a bounded run. -/
theorem run_succ {s t : State} (h : step s = .next t) (n : Nat) :
    run (n + 1) s = if t.halted then (t.haltReason, t) else run n t := by
  rw [run, h]

/-- A bounded run continues from a running state that steps have led to. -/
theorem run_add {k : Nat} {s t : State} (h : Reaches k s t) (hrun : t.halted = false) (n : Nat) :
    run (k + n) s = run n t := by
  induction k generalizing s with
  | zero => rw [reaches_zero.1 h, Nat.zero_add]
  | succ k ih =>
    obtain ⟨u, hu, hut⟩ := reaches_succ.1 h
    rw [Nat.succ_add, run_succ hu, running_of_reaches hut hrun, if_neg Bool.false_ne_true, ih hut]

/-- `u`, after `m ≥ 1` steps, is the first halted state of the run from `s`. -/
def FirstHaltedAfter (m : Nat) (s u : State) : Prop :=
  1 ≤ m ∧ Reaches m s u ∧ u.halted = true ∧ ∀ j v, j < m → Reaches j s v → v.halted = false

/-- A bounded run that gets to the first halted state ends there. -/
theorem run_of_firstHaltedAfter {m n : Nat} {s u : State} (h : FirstHaltedAfter m s u)
    (hmn : m ≤ n) : run n s = (u.haltReason, u) := by
  obtain ⟨hm, hu, hhalted, hfirst⟩ := h
  obtain ⟨j, rfl⟩ := Nat.exists_eq_add_of_le' hm
  obtain ⟨d, rfl⟩ := Nat.exists_eq_add_of_le hmn
  obtain ⟨v, hv, hvu⟩ := reaches_add.1 hu
  rw [show j + 1 + d = j + (d + 1) by omega, run_add hv (hfirst j v j.lt_succ_self hv),
    run_succ (reaches_one.1 hvu), hhalted, if_pos rfl]

/-- A bounded run from a running state that gives a reason got it from the first halted state. -/
theorem firstHaltedAfter_of_run {n : Nat} {s u : State} {r : HaltReason} (hrun : s.halted = false)
    (h : run n s = (some r, u)) : u.haltReason = some r ∧ ∃ m ≤ n, FirstHaltedAfter m s u := by
  induction n generalizing s with
  | zero => cases h
  | succ n ih =>
    obtain ⟨t, ht⟩ := everyStepHasANextState s
    have hzero : ∀ v, Reaches 0 s v → v.halted = false := fun v hv => by rwa [reaches_zero.1 hv]
    rw [run_succ ht] at h
    cases hth : t.halted with
    | true =>
      rw [hth, if_pos rfl] at h
      obtain ⟨hr, rfl⟩ := Prod.mk.inj h
      refine ⟨hr, 1, by omega, le_rfl, reaches_one.2 ht, hth, fun j v hj hv => ?_⟩
      obtain rfl : j = 0 := by omega
      exact hzero v hv
    | false =>
      rw [hth, if_neg Bool.false_ne_true] at h
      obtain ⟨hr, m, hmn, -, hu, hhalted, hfirst⟩ := ih hth h
      refine ⟨hr, m + 1, by omega, by omega, reaches_succ.2 ⟨t, ht, hu⟩, hhalted, ?_⟩
      rintro (_ | j) v hj hv
      · exact hzero v hv
      · obtain ⟨t', ht', hv⟩ := reaches_succ.1 hv
        obtain rfl : t = t' := Host.Outcome.next.inj (ht.symm.trans ht')
        exact hfirst j v (by omega) hv

/-- Settles O51, from `run_add`, `run_of_firstHaltedAfter`, `firstHaltedAfter_of_run` and
`run_succ`. -/
theorem runContinuesAfterSteps : Obligations.RunContinuesAfterSteps := by
  refine ⟨fun k n s t h hrun => ⟨run_add h hrun 0, run_add h hrun n⟩,
    fun m n s u hm hmn hu hhalted hfirst => run_of_firstHaltedAfter ⟨hm, hu, hhalted, hfirst⟩ hmn,
    fun n s u r hrun h => ?_, fun n s hs => ?_⟩
  · obtain ⟨hr, m, hmn, hm, hu, hhalted, hfirst⟩ := firstHaltedAfter_of_run hrun h
    exact ⟨hhalted, hr, m, hm, hmn, hu, hfirst⟩
  · rw [run_succ (step_halted hs), hs, if_pos rfl]

end Sys2Proof.Machine
end

section
/-! PROOFS. Construction and the host's view of `RAM` (70_reset_and_hazards.md R161, 10_state.md R29). -/

namespace Sys2Proof.Machine

/-- Settles O50, by the three tests of `construct`. -/
theorem constructionRefusesExactlyWhatIsOutside :
    Obligations.ConstructionRefusesExactlyWhatIsOutside := by
  intro program size w o
  unfold construct
  split
  next hsize => exact ⟨fun _ => .inl hsize, fun _ => ⟨_, rfl⟩⟩
  next hsize =>
    cases hw : legalWidth w with
    | false => exact ⟨fun _ => .inr (.inl rfl), fun _ => ⟨_, rfl⟩⟩
    | true =>
      cases hfind : program.find? (fun v => !fits w v) with
      | some v =>
        have hv : fits w v = false := by simpa using List.find?_some hfind
        exact ⟨fun _ => .inr (.inr ⟨v, List.mem_of_find?_eq_some hfind, hv⟩), fun _ => ⟨_, rfl⟩⟩
      | none =>
        have hfits : ∀ v ∈ program, fits w v = true := by simpa using hfind
        constructor
        · rintro ⟨_, h⟩
          cases h
        · rintro (h | h | ⟨v, hv, h⟩)
          · exact absurd h hsize
          · cases h
          · rw [hfits v hv] at h
            cases h

/-- A cell of the host's list is the cell of `RAM` at its index. -/
theorem getElem?_ramCells (s : State) (n : Nat) :
    s.ramCells[n]? = if n < s.cfg.ramLen then some (s.ram.read n) else none := by
  by_cases hn : n < s.cfg.ramLen <;> simp [State.ramCells, hn]

/-- Settles O52: the length by the range of addresses, the cells by `getElem?_ramCells`. -/
theorem snapshotShowsEveryRamCell : Obligations.SnapshotShowsEveryRamCell := by
  refine fun s => ⟨by simp [State.snapshot, State.ramCells], fun n v => ?_⟩
  rw [State.snapshot, getElem?_ramCells]
  by_cases hn : n < s.cfg.ramLen
  · have hb : inBounds (n : Int) s.cfg.ramLen = true := inBounds_iff.2 ⟨by omega, by omega⟩
    rw [memRead_inside hb, Int.toNat_natCast]
    simp [hn]
  · simp [hn]

end Sys2Proof.Machine
end

section
/-! PROOFS. The step of a two-cell instruction, with its operand cell and without (40_engine.md section 4). -/

namespace Sys2Proof.Machine

section
variable {s t : State} {op v : Int} {mk : Operand → Instr}
  (hdecode : ∀ cells, decode (op :: cells) = withOperand mk cells) (hrun : s.halted = false)
  (hcell : progRead s s.pc = .ok op)
include hdecode hrun hcell

/-- With an operand cell the step runs the handler on that operand. -/
theorem step_twoCells (hoperand : progRead s (s.pc + 1) = .ok v) :
    step s = terminalAdvance (exec (mk (some v)) s) := by
  obtain ⟨rest, hf⟩ := fetch_two_cells hcell hoperand
  exact step_instr hrun (hf.trans (hdecode _))

/-- In the last cell of the program the step runs the handler without an operand. -/
theorem step_lastCell (hlast : s.pc + 1 = (s.cfg.program.length : Int)) :
    step s = terminalAdvance (exec (mk none) s) :=
  step_instr hrun ((fetch_last_cell hcell hlast).trans (hdecode []))

/-- A handler that did not halt is followed by the terminal advance. -/
theorem step_twoCells_advance (hoperand : progRead s (s.pc + 1) = .ok v)
    (hexec : exec (mk (some v)) s = .next t) (ht : t.halted = false) :
    step s = .next (t.advancePc 1) := by
  rw [step_twoCells hdecode hrun hcell hoperand, hexec, terminalAdvance_running ht]

/-- A handler that went on by its internal advance alone leaves `PC` 2 further after the step. -/
theorem step_twoCells_running (hoperand : progRead s (s.pc + 1) = .ok v)
    (hexec : exec (mk (some v)) s = .next t) (ht : t.halted = false) (hpc : t.pc = s.pc + 1) :
    step s = .next { t with pc := s.pc + 2 } := by
  rw [step_twoCells_advance hdecode hrun hcell hoperand hexec ht, State.advancePc, hpc, add_assoc]
  rfl

/-- A handler that halted gets no terminal advance. -/
theorem step_twoCells_halted (hoperand : progRead s (s.pc + 1) = .ok v)
    (hexec : exec (mk (some v)) s = .next t) (ht : t.halted = true) : step s = .next t := by
  rw [step_twoCells hdecode hrun hcell hoperand, hexec, terminalAdvance_halted ht]

end

/-- Every handler with an operand but `JSR`'s raises after its internal advance where the operand cell
is missing. -/
theorem exec_missingOperand (s : State) : ∀ i ∈ [Instr.lda none, .adc none, .sta none, .ldx none,
    .cmy none, .bne none, .ldy none],
    exec i s = .next ((s.advancePc 1).raise (.programOutOfBounds (s.pc + 1))) := by
  simp only [List.forall_mem_cons]
  exact ⟨rfl, rfl, rfl, rfl, rfl, rfl, rfl, nofun⟩

/-- Settles O16: the handlers by `exec_missingOperand`, the steps by `step_lastCell`. -/
theorem missingOperandCellHalts : Obligations.MissingOperandCellHalts := by
  refine fun s => ⟨exec_missingOperand s, fun op hop hrun hcell hlast => ?_⟩
  have hstep : ∀ mk : Operand → Instr, (∀ cells, decode (op :: cells) = withOperand mk cells) →
      exec (mk none) s = .next ((s.advancePc 1).raise (.programOutOfBounds (s.pc + 1))) →
      step s = .next ((s.advancePc 1).raise (.programOutOfBounds (s.pc + 1))) := by
    intro mk hdecode hexec
    rw [step_lastCell hdecode hrun hcell hlast, hexec,
      terminalAdvance_halted (State.raise_halted _ _)]
  simp only [List.mem_cons, List.not_mem_nil, or_false] at hop
  rcases hop with rfl | rfl | rfl | rfl | rfl | rfl | rfl
  · exact hstep .lda decode_1 rfl
  · exact hstep .adc decode_2 rfl
  · exact hstep .sta decode_3 rfl
  · exact hstep .ldx decode_4 rfl
  · exact hstep .cmy decode_6 rfl
  · exact hstep .bne decode_7 rfl
  · exact hstep .ldy decode_10 rfl

end Sys2Proof.Machine
end

section
/-! PROOFS. `LDA`, `LDX`, `ADC` and `CMY`: no handler that has its operand halts (41_load_store.md section 2,
42_arith_compare.md sections 1 and 2). -/

namespace Sys2Proof.Machine

theorem exec_lda_some (v : Int) (s : State) :
    exec (.lda (some v)) s = .next ((s.advancePc 1).setA v) := rfl

theorem exec_ldx_some (v : Int) (s : State) :
    exec (.ldx (some v)) s = .next ((s.advancePc 1).setX v) := rfl

theorem exec_adc_some (v : Int) (s : State) : exec (.adc (some v)) s =
    .next ((s.advancePc 1).setA (normCell s.cfg.cellW (s.a + v))) := rfl

theorem exec_cmy_some (v : Int) (s : State) : exec (.cmy (some v)) s =
    .next ((s.advancePc 1).setP (flagsAfterCompare s.p (v == s.y))) := rfl

/-- Settles O12: the handlers by their equations, the steps by `step_twoCells_running`. -/
theorem ldaAndLdxLoadTheOperand : Obligations.LdaAndLdxLoadTheOperand := fun s v =>
  ⟨exec_lda_some v s, exec_ldx_some v s, fun hrun hoperand =>
    ⟨fun hcell => step_twoCells_running decode_1 hrun hcell hoperand (exec_lda_some v s) hrun rfl,
      fun hcell => step_twoCells_running decode_4 hrun hcell hoperand (exec_ldx_some v s) hrun rfl⟩⟩

/-- Settles O17: the handler by its equation, the step by `step_twoCells_running`. -/
theorem adcAddsTheOperand : Obligations.AdcAddsTheOperand := fun s v =>
  ⟨exec_adc_some v s, fun hw => by rw [hw, normCell_unbounded], fun hrun hcell hoperand =>
    step_twoCells_running decode_2 hrun hcell hoperand (exec_adc_some v s) hrun rfl⟩

/-- Settles O20: the flags by `flagTest_flagsAfterCompare`, the step by `step_twoCells_running`. -/
theorem cmySetsZeroFlagOnEquality : Obligations.CmySetsZeroFlagOnEquality := by
  refine fun s v => ⟨_, exec_cmy_some v s, rfl, ?_, fun f hf => ?_, fun hrun hcell hoperand =>
    step_twoCells_running decode_6 hrun hcell hoperand (exec_cmy_some v s) hrun rfl⟩
  · rw [State.setP_p, flagTest_flagsAfterCompare, if_pos rfl, beq_iff_eq]
  · rw [State.setP_p, flagTest_flagsAfterCompare, if_neg hf]

end Sys2Proof.Machine
end

section
/-! PROOFS. `LDY` and `STA`, inside and outside `RAM` (41_load_store.md sections 2 and 3). -/

namespace Sys2Proof.Machine

theorem exec_ldy_ok {s : State} {a v : Int} (h : memRead s a = .ok v) :
    exec (.ldy (some a)) s = .next ((s.advancePc 1).setY v) := by
  rw [exec, execLdy, fetchOperand_some, memRead_advancePc, h, attempt_ok]

theorem exec_ldy_outside {s : State} {a : Int} (h : inBounds a s.cfg.ramLen = false) :
    exec (.ldy (some a)) s = .next ((s.advancePc 1).raise (.addressOutOfBounds a)) := by
  rw [exec, execLdy, fetchOperand_some, memRead_advancePc, memRead_outside h, attempt_error]

theorem exec_sta_inside {s : State} {a : Int} (h : inBounds a s.cfg.ramLen = true) :
    exec (.sta (some a)) s = .next ((s.advancePc 1).setRam (s.ram.write a.toNat s.a)) := by
  rw [exec, execSta, fetchOperand_some, memWrite_inside (s := s.advancePc 1) h, attempt_ok]
  rfl

theorem exec_sta_outside {s : State} {a : Int} (h : inBounds a s.cfg.ramLen = false) :
    exec (.sta (some a)) s = .next ((s.advancePc 1).raise (.addressOutOfBounds a)) := by
  rw [exec, execSta, fetchOperand_some, memWrite_outside (s := s.advancePc 1) h, attempt_error]

/-- Settles O13: `exec_ldy_ok` inside `RAM`, `exec_ldy_outside` outside it. -/
theorem ldyLoadsTheRamCell : Obligations.LdyLoadsTheRamCell := by
  refine fun s a v => ⟨fun hread => ?_, fun hout hrun hcell hoperand => ?_⟩
  · have hexec := exec_ldy_ok hread
    exact ⟨hexec, fun hrun hcell hoperand =>
      step_twoCells_running decode_10 hrun hcell hoperand hexec hrun rfl⟩
  · exact step_twoCells_halted decode_10 hrun hcell hoperand
      (exec_ldy_outside (inBounds_eq_false_iff.2 hout)) rfl

/-- Settles O14: inside `RAM` the handler is one write (`exec_sta_inside`), which no other cell sees;
outside it the handler only raises. -/
theorem staStoresTheAccumulator : Obligations.StaStoresTheAccumulator := by
  refine fun s a => ⟨fun h₀ h₁ => ?_, fun hout hrun hcell hoperand => ?_⟩
  · have ha : inBounds a s.cfg.ramLen = true := inBounds_iff.2 ⟨h₀, h₁⟩
    have hexec := exec_sta_inside ha
    exact ⟨_, hexec, rfl, memRead_setRam_write_same (s.advancePc 1) s.a ha,
      fun b => exec_memRead_other hexec, fun hrun hcell hoperand =>
        step_twoCells_running decode_3 hrun hcell hoperand hexec hrun rfl⟩
  · exact step_twoCells_halted decode_3 hrun hcell hoperand
      (exec_sta_outside (inBounds_eq_false_iff.2 hout)) rfl

end Sys2Proof.Machine
end

section
/-! PROOFS. Where `BNE` goes (43_control.md section 2, 40_engine.md section 7). -/

namespace Sys2Proof.Machine

/-- `PC` after the terminal advance of a `BNE`, from `PC` after its handler. -/
theorem branchTarget_add_one (z : Bool) (p k : Int) :
    (if z then p + 1 else p + 1 + k) + 1 = if z then p + 2 else p + 2 + k := by
  split <;> omega

/-- Settles O23: the handler by `exec_bne_some`, and the terminal advance adds 1 to `PC` either way. -/
theorem bneBranchesWhenZeroFlagIsClear : Obligations.BneBranchesWhenZeroFlagIsClear := by
  refine fun s k => ⟨exec_bne_some k s, fun hrun hcell hoperand => ?_⟩
  rw [step_twoCells_advance decode_7 hrun hcell hoperand (exec_bne_some k s) hrun]
  exact congrArg (fun n => Host.Outcome.next (s.setPc n)) (branchTarget_add_one _ _ _)

/-- Settles O25: `PC` after a taken branch is `p + 2` and the operand. -/
theorem bneOperandReachesItsTarget : Obligations.BneOperandReachesItsTarget := by
  intro s target hrun hz hcell hoperand
  obtain ⟨-, hstep⟩ := bneBranchesWhenZeroFlagIsClear s (target - s.pc - 2)
  rw [hstep hrun hcell hoperand, hz, if_neg Bool.false_ne_true,
    show s.pc + 2 + (target - s.pc - 2) = target by omega]

/-- Settles O26: the branch's target is its own cell, so the step leaves the state alone. -/
theorem branchToItselfNeverHalts : Obligations.BranchToItselfNeverHalts := by
  intro s hrun hz hcell hoperand
  have hstep : step s = .next s :=
    bneOperandReachesItsTarget s s.pc hrun hz hcell (by rw [hoperand, sub_self, zero_sub])
  refine ⟨reaches_self hstep, fun k t ht => ?_⟩
  rw [reaches_unique ht (reaches_self hstep k), hrun]

end Sys2Proof.Machine
end

section
/-! PROOFS. `JSR` and `RTS`, and the calls they make (43_control.md section 3). -/

namespace Sys2Proof.Machine

theorem exec_jsr_some {s : State} (h : inBounds s.sp s.cfg.ramLen = true) (k : Int) :
    exec (.jsr (some k)) s = .next (((s.setRam (s.ram.write s.sp.toNat
      (normCell s.cfg.cellW (s.pc + 1)))).setSp (s.sp - 1)).setPc (k - 1)) := by
  rw [exec, execJsr, pushAddress, State.advancePc_sp,
    memWrite_inside (s := s.advancePc 1) h, attempt_ok]
  rfl

theorem exec_jsr_none {s : State} (h : inBounds s.sp s.cfg.ramLen = true) :
    exec (.jsr none) s = .next ((((s.advancePc 1).setRam (s.ram.write s.sp.toNat
      (normCell s.cfg.cellW (s.pc + 1)))).setSp (s.sp - 1)).raise
      (.programOutOfBounds (s.pc + 1))) := by
  rw [exec, execJsr, pushAddress, State.advancePc_sp,
    memWrite_inside (s := s.advancePc 1) h, attempt_ok]
  rfl

theorem exec_jsr_outside {s : State} (h : inBounds s.sp s.cfg.ramLen = false) (o : Operand) :
    exec (.jsr o) s = .next ((s.advancePc 1).raise (.addressOutOfBounds s.sp)) := by
  rw [exec, execJsr, pushAddress, State.advancePc_sp,
    memWrite_outside (s := s.advancePc 1) h, attempt_error]

theorem exec_rts_ok {s : State} {r : Int}
    (h : memRead s (s.sp + 1 + s.cfg.rtsReadOffset.val) = .ok r) :
    exec .rts s = .next ((s.setSp (s.sp + 1)).setPc r) := by
  rw [exec, execRts, memRead_setSp, popAddress, State.setSp_sp, State.setSp_cfg, h, attempt_ok]

theorem exec_rts_outside {s : State}
    (h : inBounds (s.sp + 1 + s.cfg.rtsReadOffset.val) s.cfg.ramLen = false) :
    exec .rts s = .next ((s.setSp (s.sp + 1)).raise
      (.addressOutOfBounds (s.sp + 1 + s.cfg.rtsReadOffset.val))) := by
  rw [exec, execRts, memRead_setSp, popAddress, State.setSp_sp, State.setSp_cfg, memRead_outside h,
    attempt_error]

/-- Settles O27: the handler is one write at the old `SP`, which no other cell sees, and the terminal
advance makes up for the `PC` one below the target. -/
theorem jsrPushesAndTransfers : Obligations.JsrPushesAndTransfers := by
  intro s k h₀ h₁
  have hsp : inBounds s.sp s.cfg.ramLen = true := inBounds_iff.2 ⟨h₀, h₁⟩
  have hexec := exec_jsr_some hsp k
  refine ⟨_, hexec, rfl, memRead_setRam_write_same s _ hsp, fun b => exec_memRead_other hexec,
    fun hrun hcell hoperand => ?_⟩
  rw [step_twoCells_advance decode_11 hrun hcell hoperand hexec hrun, State.advancePc,
    State.setPc_pc, sub_add_cancel]
  rfl

/-- Settles O28: outside `RAM` the push raises whatever the operand, and inside it the push and the
decrement come before the operand read that raises. -/
theorem jsrFaultsPushBeforeOperand : Obligations.JsrFaultsPushBeforeOperand := by
  refine fun s hrun hcell => ⟨fun hout => ?_, fun h₀ h₁ hlast => ?_⟩
  · have hsp : inBounds s.sp s.cfg.ramLen = false := inBounds_eq_false_iff.2 hout
    obtain ⟨rest, hf⟩ := fetch_opcode hcell
    obtain ⟨o, rest', hjsr⟩ := withOperand_isInstr .jsr rest
    rw [step_instr hrun ((hf.trans (decode_11 rest)).trans hjsr), exec_jsr_outside hsp]
    exact terminalAdvance_halted (State.raise_halted _ _)
  · have hsp : inBounds s.sp s.cfg.ramLen = true := inBounds_iff.2 ⟨h₀, h₁⟩
    have hexec := exec_jsr_none hsp
    have hstep := step_lastCell decode_11 hrun hcell hlast
    rw [hexec, terminalAdvance_halted (State.raise_halted _ _)] at hstep
    exact ⟨_, hstep, rfl, memRead_setRam_write_same (s.advancePc 1) _ hsp,
      fun b hb => exec_memRead_other hexec fun e => hb (Option.some.inj e).symm⟩

/-- At an opcode cell 12 the step runs the handler of `RTS`, whatever cells follow. -/
theorem step_rts {s : State} (hrun : s.halted = false) (hcell : progRead s s.pc = .ok 12) :
    step s = terminalAdvance (exec .rts s) := by
  obtain ⟨rest, hf⟩ := fetch_opcode hcell
  exact step_instr hrun (hf.trans (decode_12 rest))

/-- Settles O29: `exec_rts_ok` where the cell is inside `RAM`, `exec_rts_outside` where it is not. -/
theorem rtsPopsAndTransfers : Obligations.RtsPopsAndTransfers := by
  rintro s q r rfl
  refine ⟨fun hread => ?_, fun hout hrun hcell => ?_⟩
  · refine ⟨exec_rts_ok hread, fun hrun hcell => ?_⟩
    rw [step_rts hrun hcell, exec_rts_ok hread]
    exact terminalAdvance_running hrun
  · rw [step_rts hrun hcell, exec_rts_outside (inBounds_eq_false_iff.2 hout)]
    exact terminalAdvance_halted (State.raise_halted _ _)

/-- Settles O31: the `JSR` saved `p + 1` at its `SP`, which is where the `RTS` pops; the parameters,
among them the offset 0, are the same at the return. -/
theorem returnResumesAfterTheCall : Obligations.ReturnResumesAfterTheCall := by
  intro s t u k target hw hoffset hrun hcell hoperand h₀ h₁ hstep hreach hurun husp hsaved hrts
  obtain ⟨v, -, hv, hpushed, -, hcall⟩ := jsrPushesAndTransfers s target h₀ h₁
  obtain rfl : { v with pc := target } = t :=
    Host.Outcome.next.inj ((hcall hrun hcell hoperand).symm.trans hstep)
  have hsp : u.sp + 1 = s.sp := by
    rw [husp, hv]
    exact sub_add_cancel s.sp 1
  have hpop : s.sp = u.sp + 1 + u.cfg.rtsReadOffset.val := by
    rw [reaches_cfg hreach, step_cfg hstep, hoffset, hsp]
    simp
  have hread : memRead u s.sp = .ok (s.pc + 1) := by
    rw [hsaved]
    exact hpushed.trans (by rw [hw, normCell_unbounded])
  obtain ⟨-, hreturn⟩ := (rtsPopsAndTransfers u s.sp (s.pc + 1) hpop).1 hread
  rw [hreturn hurun hrts, hsp, add_assoc]
  rfl

/-- Settles O32: the only store address left is `SP` of a `JSR`, which is below the cell. -/
theorem nestedCallsKeepOuterReturnAddresses : Obligations.NestedCallsKeepOuterReturnAddresses := by
  intro k s t adr hreach hrun
  refine reaches_memRead_other hreach fun j u i rest hj hu hf hstore => ?_
  obtain ⟨hsp, hstores⟩ := hrun j u hj hu
  obtain ⟨hsta, hstax⟩ := hstores i rest hf
  rcases storeAddress_eq_some hstore with hi | hi | ⟨o, -, hi⟩
  · exact hsta hi
  · exact hstax hi
  · omega

end Sys2Proof.Machine
end

section
/-! PROOFS. Halts: which handlers halt, with which reason, and what they leave (60_exceptions.md sections 1
and 2); and `PC` after a step (40_engine.md section 6). -/

namespace Sys2Proof.Machine

/-- The halting cases of `exec_cases`. -/
theorem exec_halts_cases {i : Instr} {s t : State} (hrun : s.halted = false)
    (h : exec i s = .next t) (ht : t.halted = true) :
    (i = .brk ∧ t = s.raise .brk) ∨
    (∃ op, i = .invalid op ∧ t = s.raise (.invalidOpcode op)) ∨
    (i ∈ [Instr.lda none, .adc none, .sta none, .ldx none, .cmy none, .bne none, .ldy none] ∧
      t = (s.advancePc 1).raise (.programOutOfBounds (s.pc + 1))) ∨
    (∃ a, (i = .ldy (some a) ∨ i = .sta (some a)) ∧ inBounds a s.cfg.ramLen = false ∧
      t = (s.advancePc 1).raise (.addressOutOfBounds a)) ∨
    (i = .stax ∧ t = s.raise (.addressOutOfBounds s.x)) ∨
    (∃ o, i = .jsr o ∧ t = (s.advancePc 1).raise (.addressOutOfBounds s.sp)) ∨
    (i = .jsr none ∧ inBounds s.sp s.cfg.ramLen = true ∧
      t = (((s.advancePc 1).setRam
        (s.ram.write s.sp.toNat (normCell s.cfg.cellW (s.pc + 1)))).setSp (s.sp - 1)).raise
        (.programOutOfBounds (s.pc + 1))) ∨
    (i = .rts ∧ t = (s.setSp (s.sp + 1)).raise
      (.addressOutOfBounds (s.sp + 1 + s.cfg.rtsReadOffset.val))) := by
  rcases exec_cases h with ⟨rfl, rfl⟩ | ⟨_, rfl, rfl⟩ | ⟨hi, rfl⟩ | ⟨_, rfl, rfl⟩ | ⟨_, rfl, rfl⟩ |
    ⟨_, rfl, rfl⟩ | ⟨_, rfl, rfl⟩ | ⟨_, rfl, rfl⟩ | ⟨rfl, rfl⟩ | ⟨rfl, rfl⟩ | ⟨_, rfl, -, rfl⟩ |
    ⟨_, rfl, hb, rfl⟩ | ⟨_, rfl, -, rfl⟩ | ⟨_, rfl, hb, rfl⟩ | ⟨rfl, -, rfl⟩ | ⟨rfl, -, rfl⟩ |
    ⟨_, rfl, -, rfl⟩ | ⟨_, rfl, -, rfl⟩ | ⟨rfl, hb, rfl⟩ | ⟨rfl, -, rfl⟩ | ⟨rfl, -, rfl⟩
  case inr.inr.inl => exact .inr (.inr (.inl ⟨hi, rfl⟩))
  all_goals simp_all

/-- Settles O40, over the halting cases. -/
theorem eachInstructionRaisesOnlyItsReasons : Obligations.EachInstructionRaisesOnlyItsReasons := by
  intro i s t hrun h ht
  rcases exec_halts_cases hrun h ht with ⟨rfl, rfl⟩ | ⟨op, rfl, rfl⟩ | ⟨hi, rfl⟩ |
    ⟨a, rfl | rfl, hb, rfl⟩ | ⟨rfl, rfl⟩ | ⟨o, rfl, rfl⟩ | ⟨rfl, -, rfl⟩ | ⟨rfl, rfl⟩
  · rfl
  · rfl
  · simp only [List.mem_cons, List.not_mem_nil, or_false] at hi
    rcases hi with rfl | rfl | rfl | rfl | rfl | rfl | rfl <;> simp
  · exact .inr ⟨a, rfl, inBounds_eq_false_iff.1 hb, rfl⟩
  · exact .inr ⟨a, rfl, inBounds_eq_false_iff.1 hb, rfl⟩
  · rfl
  · exact .inl rfl
  · exact .inr rfl
  · rfl

/-- A step that halts is a failed fetch or a handler that halted. -/
theorem step_halts_cases {s t : State} (hrun : s.halted = false) (h : step s = .next t)
    (ht : t.halted = true) : (fetch s = .noOpcodeCell ∧ t = s.raise (.programOutOfBounds s.pc)) ∨
      ∃ i rest, fetch s = .instr i rest ∧ exec i s = .next t := by
  rcases step_cases h with ⟨hhalted, -⟩ | ⟨-, hf, rfl⟩ | ⟨-, i, rest, u, hf, he, rfl⟩
  · simp [hrun] at hhalted
  · exact .inl ⟨hf, rfl⟩
  · refine .inr ⟨i, rest, hf, ?_⟩
    cases hu : u.halted with
    | true => rw [if_pos rfl, he]
    | false => simp [hu] at ht

/-- The effects that a halted handler of `i` leaves beside the latch. -/
theorem halted_exec_effects {i : Instr} {s t : State} (hrun : s.halted = false)
    (h : exec i s = .next t) (ht : t.halted = true) :
    t.a = s.a ∧ t.x = s.x ∧ t.y = s.y ∧ t.p = s.p ∧ t.cfg = s.cfg ∧ t.haltReason ≠ none := by
  rcases exec_halts_cases hrun h ht with ⟨-, rfl⟩ | ⟨_, -, rfl⟩ | ⟨-, rfl⟩ | ⟨_, -, -, rfl⟩ |
    ⟨-, rfl⟩ | ⟨_, -, rfl⟩ | ⟨-, -, rfl⟩ | ⟨-, rfl⟩ <;> simp

/-- Settles O41: what stays the same by `halted_exec_effects`, the rest over the halting cases. -/
theorem haltKeepsOnlyTheEarlierEffects : Obligations.HaltKeepsOnlyTheEarlierEffects := by
  intro s t hrun h ht
  rcases step_halts_cases hrun h ht with ⟨hf, rfl⟩ | ⟨i, rest, hf, he⟩
  · refine ⟨by simp, fun _ => by simp, fun i rest hi => ?_⟩
    rw [hf] at hi
    cases hi
  · refine ⟨halted_exec_effects hrun he ht, fun hn => ?_, fun j rest' hj => ?_⟩
    · rw [hf] at hn
      cases hn
    obtain ⟨rfl, rfl⟩ := DecodeResult.instr.inj (hf.symm.trans hj)
    rcases exec_halts_cases hrun he ht with ⟨rfl, rfl⟩ | ⟨op, rfl, rfl⟩ | ⟨hi, rfl⟩ |
      ⟨a, rfl | rfl, -, rfl⟩ | ⟨rfl, rfl⟩ | ⟨o, rfl, rfl⟩ | ⟨rfl, hb, rfl⟩ | ⟨rfl, rfl⟩
    · exact ⟨rfl, rfl, rfl⟩
    · exact ⟨rfl, rfl, rfl⟩
    · simp only [List.mem_cons, List.not_mem_nil, or_false] at hi
      rcases hi with rfl | rfl | rfl | rfl | rfl | rfl | rfl <;> exact ⟨rfl, rfl, rfl⟩
    · exact ⟨rfl, rfl, rfl⟩
    · exact ⟨rfl, rfl, rfl⟩
    · exact ⟨rfl, rfl, rfl⟩
    · exact ⟨rfl, .inl ⟨rfl, rfl, rfl⟩⟩
    · refine ⟨rfl, .inr ⟨rfl, rfl, memRead_setRam_write_same s _ hb, fun b hne => ?_⟩⟩
      exact exec_memRead_other he fun e => hne (Option.some.inj e).symm
    · exact ⟨rfl, rfl, rfl⟩

/-! ## `PC` after a step: halted exactly when `C`, with one `PC` then and another otherwise -/

theorem halted_pc_rule {t : State} {C : Prop} {n m : Int} (ht : t.halted = true) (hC : C)
    (hpc : t.pc = n) : (t.halted = true ↔ C) ∧ t.pc = if t.halted then n else m :=
  ⟨iff_of_true ht hC, by rw [ht, if_pos rfl, hpc]⟩

theorem running_pc_rule {t : State} {C : Prop} {n m : Int} (ht : t.halted = false) (hC : ¬ C)
    (hpc : t.pc = m) : (t.halted = true ↔ C) ∧ t.pc = if t.halted then n else m :=
  ⟨iff_of_false (by simp [ht]) hC, by rw [ht, if_neg Bool.false_ne_true, hpc]⟩

theorem not_outside {i : Int} {len : Nat} (h : inBounds i len = true) :
    ¬ (i < 0 ∨ (len : Int) ≤ i) := by
  rw [← inBounds_eq_false_iff, h]
  nofun

/-- The rule for `STA` and `LDY`, which halt without an operand cell and outside `RAM`. -/
theorem pc_after_addressOperand {s t : State} {mk : Operand → Instr} {o : Operand}
    (hstep : ∀ {u}, exec (mk o) s = .next u → t = if u.halted then u else u.advancePc 1)
    (hnone : exec (mk none) s = .next ((s.advancePc 1).raise (.programOutOfBounds (s.pc + 1))))
    (hout : ∀ a, inBounds a s.cfg.ramLen = false →
      exec (mk (some a)) s = .next ((s.advancePc 1).raise (.addressOutOfBounds a)))
    (hin : ∀ a, inBounds a s.cfg.ramLen = true →
      ∃ u, exec (mk (some a)) s = .next u ∧ u.halted = false ∧ u.pc = s.pc + 1) :
    (t.halted = true ↔ o = none ∨ ∃ a, o = some a ∧ (a < 0 ∨ (s.cfg.ramLen : Int) ≤ a)) ∧
      t.pc = if t.halted then s.pc + 1 else s.pc + 2 := by
  cases o with
  | none =>
    obtain rfl := hstep hnone
    exact halted_pc_rule rfl (.inl rfl) rfl
  | some a =>
    cases ha : inBounds a s.cfg.ramLen with
    | false =>
      obtain rfl := hstep (hout a ha)
      exact halted_pc_rule rfl (.inr ⟨a, rfl, inBounds_eq_false_iff.1 ha⟩) rfl
    | true =>
      obtain ⟨u, he, hu, hpc⟩ := hin a ha
      obtain rfl := (hstep he).trans (if_neg (by simp [hu]))
      refine running_pc_rule hu (by simpa using not_outside ha) ?_
      rw [State.advancePc_pc, hpc]
      exact add_assoc s.pc 1 1

/-- Settles O11, instruction by instruction. A handler that halts leaves the `PC` of its last advance,
and after one that does not the terminal advance adds 1. -/
theorem pcAfterOneStep : Obligations.PcAfterOneStep := by
  intro s t hrun h
  refine ⟨fun hf => ?_, fun i rest hf => ?_⟩
  · obtain rfl := Host.Outcome.next.inj ((step_noOpcodeCell hrun hf).symm.trans h)
    exact ⟨rfl, rfl⟩
  have hstep : ∀ {u}, exec i s = .next u → t = if u.halted then u else u.advancePc 1 :=
    fun he => Host.Outcome.next.inj (h.symm.trans (step_of_exec hrun hf he))
  have hhalt : ∀ {u}, exec i s = .next u → u.halted = true → t = u :=
    fun he hu => (hstep he).trans (if_pos hu)
  have hgo : ∀ {u}, exec i s = .next u → u.halted = false → t = u.advancePc 1 :=
    fun he hu => (hstep he).trans (if_neg (by simp [hu]))
  cases i with
  | brk | invalid op =>
    obtain rfl := hhalt rfl rfl
    exact ⟨rfl, rfl⟩
  | inx | dey =>
    obtain rfl := hgo rfl hrun
    exact ⟨hrun, rfl⟩
  | stax =>
    cases hx : inBounds s.x s.cfg.ramLen with
    | false =>
      obtain rfl := hhalt (exec_stax_outside hx) rfl
      exact halted_pc_rule rfl (inBounds_eq_false_iff.1 hx) rfl
    | true =>
      obtain rfl := hgo (exec_stax_inside hx) hrun
      exact running_pc_rule hrun (not_outside hx) rfl
  | lda o | adc o | ldx o | cmy o =>
    cases o with
    | none =>
      obtain rfl := hhalt rfl rfl
      exact halted_pc_rule rfl rfl rfl
    | some v =>
      obtain rfl := hgo rfl hrun
      exact running_pc_rule hrun nofun (add_assoc s.pc 1 1)
  | sta o =>
    exact pc_after_addressOperand hstep rfl (fun _ => exec_sta_outside)
      fun _ ha => ⟨_, exec_sta_inside ha, hrun, rfl⟩
  | ldy o =>
    exact pc_after_addressOperand hstep rfl (fun _ => exec_ldy_outside)
      fun _ ha => ⟨_, exec_ldy_ok (memRead_inside ha), hrun, rfl⟩
  | bne o =>
    cases o with
    | none =>
      obtain rfl := hhalt rfl rfl
      exact ⟨rfl, rfl⟩
    | some k =>
      obtain rfl := hgo (exec_bne_some k s) hrun
      exact ⟨hrun, branchTarget_add_one _ _ _⟩
  | jsr o =>
    cases hsp : inBounds s.sp s.cfg.ramLen with
    | false =>
      obtain rfl := hhalt (exec_jsr_outside hsp o) rfl
      cases o with
      | none => exact ⟨rfl, rfl⟩
      | some k => exact halted_pc_rule rfl (inBounds_eq_false_iff.1 hsp) rfl
    | true =>
      cases o with
      | none =>
        obtain rfl := hhalt (exec_jsr_none hsp) rfl
        exact ⟨rfl, rfl⟩
      | some k =>
        obtain rfl := hgo (exec_jsr_some hsp k) hrun
        exact running_pc_rule hrun (not_outside hsp) (sub_add_cancel k 1)
  | rts =>
    cases hq : inBounds (s.sp + 1 + s.cfg.rtsReadOffset.val) s.cfg.ramLen with
    | false =>
      obtain rfl := hhalt (exec_rts_outside hq) rfl
      refine ⟨?_, fun _ => rfl⟩
      rintro _ rfl
      refine ⟨iff_of_true rfl (inBounds_eq_false_iff.1 hq), fun r hr => ?_⟩
      rw [memRead_outside hq] at hr
      cases hr
    | true =>
      obtain rfl := hgo (exec_rts_ok (memRead_inside hq)) hrun
      refine ⟨?_, fun ht => absurd (ht.symm.trans hrun) nofun⟩
      rintro _ rfl
      refine ⟨iff_of_false (fun ht => absurd (ht.symm.trans hrun) nofun) (not_outside hq), ?_⟩
      intro r hr
      rw [memRead_inside hq] at hr
      cases hr
      rfl

end Sys2Proof.Machine
end

section
/-! PROOFS. The handlers that take a decoded operand against the spec's sequences of statements, which
read it themselves (30_encoding.md R62, 40_engine.md R85). -/

namespace Sys2Proof.Machine

/-- The block run from `s` has the effect that a handler's answer `t` describes: it completes in `t`,
which runs on, or it raises, and `t` is where it had come to with the latch set (60_exceptions.md
R135). -/
def Block.Gives (b : Block Unit) (s t : State) : Prop :=
  (b.run s = (.ok (), t) ∧ t.halted = false) ∨ ∃ r u, b.run s = (.error r, u) ∧ t = u.raise r

/-! ## One rule per statement -/

theorem Block.gives_pure {s : State} (h : s.halted = false) : (pure () : Block Unit).Gives s s :=
  .inl ⟨Block.run_pure () s, h⟩

theorem Block.gives_modify {f : State → State} {s : State} (h : (f s).halted = false) :
    (modify f : Block Unit).Gives s (f s) := .inl ⟨Block.run_modify f s, h⟩

theorem Block.gives_throw (r : HaltReason) (s : State) :
    (throw r : Block Unit).Gives s (s.raise r) := .inr ⟨r, s, Block.run_throw r s, rfl⟩

/-- After a statement that succeeds, the block does what the statements after it do. -/
theorem Block.gives_bind_ok {α : Type} {b : Block α} {v : α} {s u t : State} {k : α → Block Unit}
    (hb : b.run s = (.ok v, u)) (h : (k v).Gives u t) : (b >>= k).Gives s t := by
  have hrun : (b >>= k).run s = (k v).run u := by rw [Block.run_bind, hb]
  rwa [Block.Gives, hrun]

/-- A statement that raises ends the block. -/
theorem Block.gives_bind_error {α : Type} {b : Block α} {r : HaltReason} {s u : State}
    {k : α → Block Unit} (hb : b.run s = (.error r, u)) : (b >>= k).Gives s (u.raise r) :=
  .inr ⟨r, u, by rw [Block.run_bind, hb], rfl⟩

theorem Block.gives_get_bind {s t : State} {k : State → Block Unit} (h : (k s).Gives s t) :
    (get >>= k : Block Unit).Gives s t := Block.gives_bind_ok (Block.run_get s) h

theorem Block.gives_modify_bind {f : State → State} {s t : State} {k : Unit → Block Unit}
    (h : (k ()).Gives (f s) t) : (modify f >>= k : Block Unit).Gives s t :=
  Block.gives_bind_ok (Block.run_modify f s) h

/-- A read and the statements after it are `attempt`. -/
theorem Block.gives_ask_bind {f : State → Except HaltReason Int} {s : State}
    {r : Except HaltReason Int} (hr : f s = r) {k : Int → Block Unit} {k' : Int → State}
    (h : ∀ v, (k v).Gives s (k' v)) : (Block.ask f >>= k).Gives s (attempt s r k') := by
  have hask := Block.run_ask f s
  rw [hr] at hask
  cases r with
  | ok v => exact Block.gives_bind_ok hask (h v)
  | error e => exact Block.gives_bind_error hask

/-- A store and the statements after it are `attempt`; a store keeps the latch. -/
theorem Block.gives_store_bind {a v : Int} {s : State} (hrun : s.halted = false)
    {k : Unit → Block Unit} {k' : State → State}
    (h : ∀ u, u.halted = false → u.pc = s.pc → u.cfg = s.cfg → (k ()).Gives u (k' u)) :
    (Block.store a v >>= k).Gives s (attempt s (memWrite s a v) k') := by
  have hstore := Block.run_store a v s
  rcases memWrite_cases s a v with ⟨-, hw⟩ | ⟨-, hw⟩ <;> rw [hw] at hstore ⊢
  · exact Block.gives_bind_ok hstore (h _ hrun rfl rfl)
  · exact Block.gives_bind_error hstore

theorem Block.gives_store {a v : Int} {s : State} (hrun : s.halted = false) :
    (Block.store a v).Gives s (attempt s (memWrite s a v) fun u => u) := by
  have hstore := Block.run_store a v s
  rcases memWrite_cases s a v with ⟨-, hw⟩ | ⟨-, hw⟩ <;> rw [hw] at hstore ⊢
  · exact .inl ⟨hstore, hrun⟩
  · exact .inr ⟨_, _, hstore, rfl⟩

/-- The decoded operand is what `ProgRead` gives on the operand cell (40_engine.md R84). -/
def OperandAt (s : State) (o : Operand) : Prop :=
  readOperand o (s.advancePc 1) = progRead s (s.pc + 1)

theorem readOperand_congr {s t : State} (h : t.pc = s.pc) (o : Operand) :
    readOperand o t = readOperand o s := by
  cases o with
  | none => rw [readOperand_none, readOperand_none, h]
  | some v => rfl

/-- The operand fetch and the statements after it are `fetchOperand`. -/
theorem Block.gives_fetchOperand_bind {o : Operand} {s : State} (ho : OperandAt s o)
    {k : Int → Block Unit} {k' : State → Int → State}
    (h : ∀ v, (k v).Gives (s.advancePc 1) (k' (s.advancePc 1) v)) :
    (Block.fetchOperand >>= k).Gives s (Machine.fetchOperand o s k') := by
  have hfetch := Block.run_fetchOperand s
  rw [← ho] at hfetch
  cases o with
  | some v => exact Block.gives_bind_ok hfetch (h v)
  | none => exact Block.gives_bind_error hfetch

/-! ## One lemma per handler -/

/-- The spec's sequence for an instruction has the effect of the model's handler on `s`. -/
def HandlerAgrees (b : Block Unit) (i : Instr) (s : State) : Prop :=
  ∃ t, exec i s = .next t ∧ b.Gives s t

section
variable {s : State} {o : Operand} (hrun : s.halted = false) (ho : OperandAt s o)

theorem handlerBrk_agrees : HandlerAgrees handlerBrk .brk s :=
  ⟨_, rfl, Block.gives_throw .brk s⟩

theorem handlerInvalid_agrees (op : Int) : HandlerAgrees (handlerInvalid op) (.invalid op) s :=
  ⟨_, rfl, Block.gives_throw (.invalidOpcode op) s⟩

include hrun

theorem handlerInx_agrees : HandlerAgrees handlerInx .inx s := ⟨_, rfl, Block.gives_modify hrun⟩

theorem handlerDey_agrees : HandlerAgrees handlerDey .dey s := ⟨_, rfl, Block.gives_modify hrun⟩

theorem handlerStax_agrees : HandlerAgrees handlerStax .stax s :=
  ⟨_, rfl, Block.gives_get_bind (Block.gives_store hrun)⟩

theorem handlerRts_agrees : HandlerAgrees handlerRts .rts s := by
  refine ⟨_, rfl, Block.gives_modify_bind (Block.gives_ask_bind rfl fun r => ?_)⟩
  exact Block.gives_modify hrun

include ho

theorem handlerLda_agrees : HandlerAgrees handlerLda (.lda o) s :=
  ⟨_, rfl, Block.gives_fetchOperand_bind ho fun _ => Block.gives_modify hrun⟩

theorem handlerAdc_agrees : HandlerAgrees handlerAdc (.adc o) s :=
  ⟨_, rfl, Block.gives_fetchOperand_bind ho fun _ => Block.gives_modify hrun⟩

theorem handlerLdx_agrees : HandlerAgrees handlerLdx (.ldx o) s :=
  ⟨_, rfl, Block.gives_fetchOperand_bind ho fun _ => Block.gives_modify hrun⟩

theorem handlerSta_agrees : HandlerAgrees handlerSta (.sta o) s :=
  ⟨_, rfl, Block.gives_fetchOperand_bind ho fun _ =>
    Block.gives_get_bind (Block.gives_store hrun)⟩

theorem handlerLdy_agrees : HandlerAgrees handlerLdy (.ldy o) s :=
  ⟨_, rfl, Block.gives_fetchOperand_bind ho fun _ =>
    Block.gives_ask_bind rfl fun _ => Block.gives_modify hrun⟩

theorem handlerCmy_agrees : HandlerAgrees handlerCmy (.cmy o) s := by
  refine ⟨_, rfl, Block.gives_fetchOperand_bind ho fun v => Block.gives_get_bind ?_⟩
  by_cases hv : v = (s.advancePc 1).y
  · rw [if_pos hv, flagsAfterCompare, if_pos (beq_iff_eq.2 hv)]
    exact Block.gives_modify hrun
  · rw [if_neg hv, flagsAfterCompare, if_neg (by simpa using hv)]
    exact Block.gives_modify hrun

theorem handlerBne_agrees : HandlerAgrees handlerBne (.bne o) s := by
  refine ⟨_, rfl, Block.gives_fetchOperand_bind ho fun k => Block.gives_get_bind ?_⟩
  cases hz : flagTest (s.advancePc 1).p .z with
  | false => exact Block.gives_modify hrun
  | true => exact Block.gives_pure hrun

/-- The operand read of `JSR` comes after the push and the decrement, which leave the program store
and `PC` alone, so it finds what was there before (43_control.md R123, D4). -/
theorem handlerJsr_agrees : HandlerAgrees handlerJsr (.jsr o) s := by
  refine ⟨_, rfl, Block.gives_modify_bind (Block.gives_get_bind (Block.gives_get_bind
    (Block.gives_get_bind (Block.gives_store_bind (s := s.advancePc 1) hrun
      fun u hu hpc hcfg => Block.gives_modify_bind ?_))))⟩
  have hread : progRead (u.setSp (u.sp - 1)) u.pc = readOperand o (u.setSp (u.sp - 1)) := by
    rw [readOperand_congr (s := s.advancePc 1) (t := u.setSp (u.sp - 1)) hpc, ho, hpc]
    exact progRead_congr hcfg (s.pc + 1)
  exact Block.gives_ask_bind hread fun t => Block.gives_modify hu

end

/-! ## The step -/

/-- What is fetched at the opcode of a two-cell instruction, with the operand that `ProgRead` gives. -/
theorem fetch_operandAt {s : State} {op : Int} {mk : Operand → Instr}
    (hdecode : ∀ cells, decode (op :: cells) = withOperand mk cells)
    (hcell : progRead s s.pc = .ok op) : ∃ o rest, OperandAt s o ∧ fetch s = .instr (mk o) rest := by
  rcases fetchCells_cases s with ⟨op', v, rest, hop, hv, hc⟩ | ⟨op', hop, -, hv, hc⟩ | ⟨hop, -, -⟩ <;>
    rw [hcell] at hop <;> cases hop
  · exact ⟨some v, rest, hv.symm, by rw [fetch, hc, hdecode, withOperand_cons]⟩
  · exact ⟨none, [], hv.symm, by rw [fetch, hc, hdecode, withOperand_nil]⟩

/-- The handler that the opcode table gives for an opcode cell agrees with the instruction decoded
from it. -/
theorem handler_agrees {s : State} {op : Int} (hrun : s.halted = false)
    (hcell : progRead s s.pc = .ok op) :
    ∃ i rest, fetch s = .instr i rest ∧ HandlerAgrees (handler op) i s := by
  have hone : ∀ i, (∀ rest, decode (op :: rest) = .instr i rest) → HandlerAgrees (handler op) i s →
      ∃ i rest, fetch s = .instr i rest ∧ HandlerAgrees (handler op) i s := by
    intro i hdecode hagrees
    obtain ⟨rest, hf⟩ := fetch_opcode hcell
    exact ⟨i, rest, hf.trans (hdecode rest), hagrees⟩
  have htwo : ∀ mk : Operand → Instr, (∀ cells, decode (op :: cells) = withOperand mk cells) →
      (∀ {o}, OperandAt s o → HandlerAgrees (handler op) (mk o) s) →
      ∃ i rest, fetch s = .instr i rest ∧ HandlerAgrees (handler op) i s := by
    intro mk hdecode hagrees
    obtain ⟨o, rest, ho, hf⟩ := fetch_operandAt hdecode hcell
    exact ⟨mk o, rest, hf, hagrees ho⟩
  rcases opcode_cases op with rfl | rfl | rfl | rfl | rfl | rfl | rfl | rfl | rfl | rfl | rfl |
    rfl | rfl | hop
  · exact hone .brk decode_0 handlerBrk_agrees
  · exact htwo .lda decode_1 (handlerLda_agrees hrun)
  · exact htwo .adc decode_2 (handlerAdc_agrees hrun)
  · exact htwo .sta decode_3 (handlerSta_agrees hrun)
  · exact htwo .ldx decode_4 (handlerLdx_agrees hrun)
  · exact hone .inx decode_5 (handlerInx_agrees hrun)
  · exact htwo .cmy decode_6 (handlerCmy_agrees hrun)
  · exact htwo .bne decode_7 (handlerBne_agrees hrun)
  · exact hone .stax decode_8 (handlerStax_agrees hrun)
  · exact hone .dey decode_9 (handlerDey_agrees hrun)
  · exact htwo .ldy decode_10 (handlerLdy_agrees hrun)
  · exact htwo .jsr decode_11 (handlerJsr_agrees hrun)
  · exact hone .rts decode_12 (handlerRts_agrees hrun)
  · have hhandler : handler op = handlerInvalid op := by
      have hne : ∀ n : Int, 0 ≤ n → n ≤ 12 → (op == n) = false := fun n h₀ h₁ =>
        beq_eq_false_iff_ne.2 (by omega)
      simp [handler, handlerTable, List.lookup, hne]
    exact hone (.invalid op) (decode_unmapped hop) (hhandler ▸ handlerInvalid_agrees op)

/-- `Step()` on a running machine, when the opcode fetch and the handler give `t`: the boolean is that
of the latch, and unless it is set the loop adds 1 to `PC`. -/
theorem pseudoStep_of_gives {s t : State} (hrun : s.halted = false)
    (h : ((Block.ask fun s => progRead s s.pc) >>= handler).Gives s t) :
    pseudoStep s = (!t.halted, if t.halted then t else t.advancePc 1) := by
  rw [pseudoStep, hrun, if_neg Bool.false_ne_true]
  rcases h with ⟨hb, ht⟩ | ⟨r, u, hb, rfl⟩
  · rw [hb, ht]
    rfl
  · rw [hb]
    rfl

/-- The one reason that `ProgRead` raises (20_memory.md R43). -/
theorem progRead_error {s : State} {i : Int} {r : HaltReason} (h : progRead s i = .error r) :
    r = .programOutOfBounds i := by
  rcases progRead_cases s i with ⟨_, _, -, -, hr⟩ | ⟨-, hr⟩ <;> rw [h] at hr <;> cases hr
  rfl

/-- Settles O10. On a running machine either the opcode fetch raises in both, or `handler_agrees`
gives the one state that both leave. -/
theorem stepEqualsTheHandlerSequences : Obligations.StepEqualsTheHandlerSequences := by
  intro s
  have hagree : ∀ {t}, step s = .next t → pseudoStep s = (!t.halted, t) →
      step s = .next (pseudoStep s).2 ∧ stepBool s = (pseudoStep s).1 := fun h hp =>
    hp ▸ ⟨h, stepBool_of_step h⟩
  cases hrun : s.halted with
  | true => exact hagree (step_halted hrun) (by rw [pseudoStep, hrun, if_pos rfl]; rfl)
  | false =>
    have hask := Block.run_ask (fun s => progRead s s.pc) s
    cases hcell : progRead s s.pc with
    | error r =>
      obtain rfl := progRead_error hcell
      rw [hcell] at hask
      exact hagree (step_noOpcodeCell hrun (fetch_noOpcodeCell hcell))
        (pseudoStep_of_gives hrun (Block.gives_bind_error hask))
    | ok op =>
      obtain ⟨i, rest, hf, t, he, hgives⟩ := handler_agrees hrun hcell
      rw [hcell] at hask
      refine hagree (step_of_exec hrun hf he)
        ((pseudoStep_of_gives hrun (Block.gives_bind_ok hask hgives)).trans ?_)
      cases ht : t.halted <;> simp [ht]

end Sys2Proof.Machine
end
